-- ==== Sys2Proof/Word.lean ====
section
/-! DEFINITION. The widths of the core (spec/00_scope.md R8, R13): bytes, fields, command and response words. -/

namespace Sys2Proof

/-- A byte of the wire stream: 8 bits, unsigned (R8, R13). -/
abbrev Byte := BitVec 8

/-- A field value, and the width of a command's or a response's DATA: 16 bits, unsigned (R8, R51, R55). -/
abbrev Half := BitVec 16

/-- A command word or a response word: 32 bits, passed whole (R8, R37). -/
abbrev Word := BitVec 32

/-- The IDX field of a command word: 2 bits, unsigned (R51, R53). -/
abbrev Index := BitVec 2

end Sys2Proof
end

