-- ==== Sys2Proof/Config.lean ====
section
/-! DEFINITION. The core's one build-time parameter: the field count N (spec/00_scope.md R7, spec/92_eei_decisions.md D26). -/

namespace Sys2Proof

/-- The legal values of N: 1, 2, 3 and 4 (R7; N = 0 is no legal configuration). -/
inductive FieldCount where
  | one
  | two
  | three
  | four
  deriving DecidableEq, Repr

/-- N as a number. -/
def FieldCount.toNat : FieldCount → Nat
  | .one => 1
  | .two => 2
  | .three => 3
  | .four => 4

/-- DESIGN CHOICE (log 1): the N of the one core whose reset state `State.reset` is. The spec leaves N open (D26).
Every state carries its own N, so that no claim about all states rests on this value. -/
def Config.resetFieldCount : FieldCount := .four

end Sys2Proof
end

