-- ==== Sys2Proof/Machine/Codec.lean ====
section
/-! DEFINITION. The pure functions of the codec: the checksum generator, byte-stuffing, the frame-boundary
synchronizer (spec/40_codec_functions.md), the wire frame (spec/30_encoding.md part 1) and the decoding of a span
(spec/42_decoder.md R74, R75). None reads or writes state; each has a value for every argument. -/

namespace Sys2Proof.Machine

/-! ## Constants and sizes -/

/-- STX, the start-of-frame byte (spec/00_scope.md R8). -/
def stx : Byte := 0x02#8

/-- ETX, the end-of-frame byte (R8). -/
def etx : Byte := 0x03#8

/-- ESC, the escape byte (R8). -/
def esc : Byte := 0x5C#8

/-- MAXBUF = 2 + 4·N: the most bytes RXBUF holds between commands (R8, R20). -/
def maxBuf (n : FieldCount) : Nat := 2 + 4 * n.toNat

/-- 4·N + 3: the most bytes a frame, and so TXQ, has (R9, spec/30_encoding.md R49). -/
def maxFrame (n : FieldCount) : Nat := 4 * n.toNat + 3

/-- 2·N + 1: the fewest interior bytes a closed span has, room for N fields and a checksum (R67). -/
def minInterior (n : FieldCount) : Nat := 2 * n.toNat + 1

/-! ## Checksum generator -/

/-- Sum8: the sum of the bytes modulo 256 (R59). -/
def sum8 (S : List Byte) : Byte := BitVec.ofNat 8 (S.map BitVec.toNat).sum

/-! ## Byte-stuffing -/

/-- b ∈ CTRL: STX, ETX or ESC (spec/30_encoding.md R47). -/
def isCtrl (b : Byte) : Bool := b == stx || b == etx || b == esc

/-- Esc1 (R61): a control byte is sent as the pair ESC, b; any other byte as itself. -/
def esc1 (b : Byte) : List Byte := if isCtrl b then [esc, b] else [b]

/-- Stuff (R61). -/
def stuff (S : List Byte) : List Byte := S.flatMap esc1

/-- Unstuff (R63): one walk from the left; ESC and a following byte give that byte, whatever it is; any other byte,
and an ESC with nothing after it, gives itself. -/
def unstuff : List Byte → List Byte
  | [] => []
  | [b] => [b]
  | b :: c :: rest => if b = esc then c :: unstuff rest else b :: unstuff (c :: rest)

/-! ## Frame-boundary synchronizer -/

/-- Run(B, i): the number of consecutive ESC bytes immediately before index i (R65). -/
def escRun (B : List Byte) (i : Nat) : Nat := ((B.take i).reverse.takeWhile (· == esc)).length

/-- Esc(B, i): the byte at i is escaped, its run being odd (R65). -/
def escaped (B : List Byte) (i : Nat) : Bool := escRun B i % 2 == 1

/-- Index i of B holds an unescaped STX. -/
def startAt (B : List Byte) (i : Nat) : Bool := B[i]? == some stx && !escaped B i

/-- LastStart(B, e): the last unescaped STX strictly before index e, or none (R66). -/
def lastStart (B : List Byte) : Nat → Option Nat
  | 0 => none
  | i + 1 => if startAt B i then some i else lastStart B i

/-- Close(B): the span (s, e) that B's last byte closes, or none (R67). The empty sequence closes nothing. -/
def closeSpan (n : FieldCount) (B : List Byte) : Option (Nat × Nat) :=
  let e := B.length - 1
  if B[e]? ≠ some etx then none
  else if escaped B e then none
  else
    match lastStart B e with
    | none => none
    | some s => if e - s - 1 < minInterior n then none else some (s, e)

/-! ## The wire frame -/

/-- BE(f): the two bytes of a field, high byte first (spec/20_memory.md R35). -/
def bigEndian (f : Half) : List Byte := [f.extractLsb' 8 8, f.extractLsb' 0 8]

/-- Payload(F): the fields' bytes in order (R46). -/
def payload (F : List Half) : List Byte := F.flatMap bigEndian

/-- CHK(F): the checksum over STX and the payload, before escaping (R46). -/
def checksum (F : List Half) : Byte := sum8 (stx :: payload F)

/-- The bytes of a frame between its STX and its ETX before stuffing: the payload and the checksum (R46, R48). -/
def interiorBytes (F : List Half) : List Byte := payload F ++ [checksum F]

/-- Frame(F): STX, the stuffed interior, ETX (R46). -/
def frame (F : List Half) : List Byte := stx :: (stuff (interiorBytes F) ++ [etx])

/-! ## Decoding a span -/

/-- The field at position i of unstuffed bytes: V[2i]·256 + V[2i+1] (R74). A byte that is not there reads as 0x00,
which is the padding of R75. -/
def fieldAt (V : List Byte) (i : Nat) : Half := V.getD (2 * i) 0x00#8 ++ V.getD (2 * i + 1) 0x00#8

/-- The N fields of unstuffed bytes, in order (R74, R75). -/
def fieldsOf (n : FieldCount) (V : List Byte) : List Half := (List.range n.toNat).map (fieldAt V)

/-- Decoding of an unstuffed interior U: its fields and whether its checksum holds (R74). The checksum byte is U's
last byte, and it is compared with Sum8 over STX and the first 2·N bytes. If U has fewer than 2·N bytes the missing
ones read as 0x00 and the checksum is invalid (R75). -/
def decodeInterior (n : FieldCount) (U : List Byte) : List Half × Bool :=
  (fieldsOf n U,
    decide (2 * n.toNat ≤ U.length) && (U.getLast? == some (sum8 (stx :: U.take (2 * n.toNat)))))

/-- B[s+1 .. e-1]: the raw bytes strictly between indices s and e (R74). -/
def between (B : List Byte) (s e : Nat) : List Byte := (B.take e).drop (s + 1)

/-- DecodeSpan(B, s, e) (R74, R75). -/
def decodeSpan (n : FieldCount) (B : List Byte) (s e : Nat) : List Half × Bool :=
  decodeInterior n (unstuff (between B s e))

end Sys2Proof.Machine
end

