-- ==== Sys2Proof/Syntax.lean ====
section
/-! DEFINITION. The commands of the core's command port: one constructor per row of spec/opcode_table.json
(spec/30_encoding.md R52). -/

namespace Sys2Proof

/-- A command with its free fields (R52, R53). An operand has exactly the bits its row frees, so that a wider value
cannot be written (spec/93_implementation_defined.md I2). -/
inductive Instr where
  /-- NOP (R88). -/
  | nop
  /-- EWF idx, value (R70): write an encoder field register. -/
  | ewf (idx : Index) (value : Half)
  /-- ESTART (R71): encode the field registers and latch the frame. -/
  | estart
  /-- TXPOP (R72): output the next byte of the latched frame. -/
  | txpop
  /-- RXB byte (R79): receive one wire byte. -/
  | rxb (byte : Byte)
  /-- RDSTAT (R80): read STATUS. -/
  | rdstat
  /-- RDFLD idx (R81): read a decoded field. -/
  | rdfld (idx : Index)
  /-- RDRXLEN (R82): read the receive buffer's length and the decoder's state. -/
  | rdrxlen
  deriving DecidableEq, Repr

end Sys2Proof
end

