-- ==== Sys2Proof/WellFormed.lean ====
section
/-! DEFINITION. When a command is legal in a core built with N fields: the value checks of spec/30_encoding.md R52. -/

namespace Sys2Proof

/-- The value check of the command's row (R52): IDX < N for EWF and RDFLD, none for the other rows. Everything else
that can make a word illegal (R54 a, b, c) has no place in the term and is refused by the decoder. -/
def Instr.wellFormed (n : FieldCount) : Instr → Bool
  | .nop => true
  | .ewf idx _ => decide (idx.toNat < n.toNat)
  | .estart => true
  | .txpop => true
  | .rxb _ => true
  | .rdstat => true
  | .rdfld idx => decide (idx.toNat < n.toNat)
  | .rdrxlen => true

end Sys2Proof
end

