-- ==== Sys2Proof/Decode.lean ====
section
/-! DEFINITION. The command word: its fields, the decoder, the opcode table as masks and patterns, and the encoder
(spec/30_encoding.md R51 to R54). -/

namespace Sys2Proof

/-- The four causes of an illegal word (R54 a to d; spec/60_exceptions.md R92). They name the rejection; no response
tells them apart (R99), and which one a word with several is refused for is DESIGN CHOICE (log 6). -/
inductive Illegal where
  /-- (a) OP is 0x8 to 0xF. -/
  | reservedOpcode
  /-- (b) RSV is not 0. -/
  | reservedBits
  /-- (c) a field that the command's row does not free is not 0. -/
  | unusedField
  /-- (d) IDX ≥ N for EWF or RDFLD. -/
  | indexRange
  deriving DecidableEq, Repr

/-- CMD[31:28] (R51). -/
def opField (w : Word) : BitVec 4 := w.extractLsb' 28 4

/-- CMD[27:26] (R51). -/
def idxField (w : Word) : Index := w.extractLsb' 26 2

/-- CMD[25:16] (R51). -/
def rsvField (w : Word) : BitVec 10 := w.extractLsb' 16 10

/-- CMD[15:0] (R51). -/
def dataField (w : Word) : Half := w.extractLsb' 0 16

/-- CMD[15:8], which must be 0 in RXB (R53). -/
def dataHighField (w : Word) : Byte := w.extractLsb' 8 8

/-- CMD[7:0], RXB's byte (R53). -/
def byteField (w : Word) : Byte := w.extractLsb' 0 8

/-- `i` if the fields its row does not free are all 0, else the rejection (c). -/
def whenUnusedZero (unusedZero : Bool) (i : Instr) : Except Illegal Instr :=
  if unusedZero then .ok i else .error .unusedField

/-- The command a word spells, whatever N: R52's rows and R54 (a), (b), (c). -/
def decodeWord (w : Word) : Except Illegal Instr :=
  if rsvField w ≠ 0 then .error .reservedBits
  else
    match (opField w).toNat with
    | 0 => whenUnusedZero (idxField w == 0 && dataField w == 0) .nop
    | 1 => .ok (.ewf (idxField w) (dataField w))
    | 2 => whenUnusedZero (idxField w == 0 && dataField w == 0) .estart
    | 3 => whenUnusedZero (idxField w == 0 && dataField w == 0) .txpop
    | 4 => whenUnusedZero (idxField w == 0 && dataHighField w == 0) (.rxb (byteField w))
    | 5 => whenUnusedZero (idxField w == 0 && dataField w == 0) .rdstat
    | 6 => whenUnusedZero (dataField w == 0) (.rdfld (idxField w))
    | 7 => whenUnusedZero (idxField w == 0 && dataField w == 0) .rdrxlen
    | _ => .error .reservedOpcode

/-- The whole legality test of a core with N fields: `decodeWord` and then R54 (d). -/
def decode (n : FieldCount) (w : Word) : Except Illegal Instr :=
  match decodeWord w with
  | .error e => .error e
  | .ok i => if i.wellFormed n then .ok i else .error .indexRange

/-- What `decodeWord` reads from a word of the opcode table: `w`'s lowest `nbits` bits, as one 32-bit command word.
A command word is passed whole and has no byte order (R37), and every row has 32 bits. The table's rows do not fix
N, so R54 (d) is not applied here (DESIGN CHOICE, log 6). -/
def decodeTableWord (nbits w : Nat) : Option Instr :=
  (decodeWord (BitVec.ofNat 32 (w % 2 ^ nbits))).toOption

/-! ## The opcode map as the table writes it: masks and patterns -/

/-- A row of the opcode map (R52; spec/opcode_table.json): a word is the row's when its masked bits are the pattern,
and `checksIndex` says that the row's value check is IDX < N. -/
structure OpcodeRow where
  mnemonic : String
  pattern : Word
  mask : Word
  checksIndex : Bool
  deriving DecidableEq, Repr

/-- The eight rows of R52. -/
def opcodeRows : List OpcodeRow :=
  [ ⟨"NOP", 0x00000000#32, 0xFFFFFFFF#32, false⟩,
    ⟨"EWF", 0x10000000#32, 0xF3FF0000#32, true⟩,
    ⟨"ESTART", 0x20000000#32, 0xFFFFFFFF#32, false⟩,
    ⟨"TXPOP", 0x30000000#32, 0xFFFFFFFF#32, false⟩,
    ⟨"RXB", 0x40000000#32, 0xFFFFFF00#32, false⟩,
    ⟨"RDSTAT", 0x50000000#32, 0xFFFFFFFF#32, false⟩,
    ⟨"RDFLD", 0x60000000#32, 0xF3FFFFFF#32, true⟩,
    ⟨"RDRXLEN", 0x70000000#32, 0xFFFFFFFF#32, false⟩ ]

/-- The row's name of a command (R52). -/
def Instr.mnemonic : Instr → String
  | .nop => "NOP"
  | .ewf _ _ => "EWF"
  | .estart => "ESTART"
  | .txpop => "TXPOP"
  | .rxb _ => "RXB"
  | .rdstat => "RDSTAT"
  | .rdfld _ => "RDFLD"
  | .rdrxlen => "RDRXLEN"

/-- `CMD & mask == match` and the row's value check (R52). -/
def OpcodeRow.admits (n : FieldCount) (w : Word) (r : OpcodeRow) : Bool :=
  (w &&& r.mask == r.pattern) && (!r.checksIndex || decide ((idxField w).toNat < n.toNat))

/-! ## The encoder -/

/-- A command word from its four fields (R51). -/
def packFields (op : BitVec 4) (idx : Index) (rsv : BitVec 10) (data : Half) : Word :=
  op ++ idx ++ rsv ++ data

/-- The OP value of a command's row (R52). -/
def Instr.opcode : Instr → BitVec 4
  | .nop => 0x0#4
  | .ewf _ _ => 0x1#4
  | .estart => 0x2#4
  | .txpop => 0x3#4
  | .rxb _ => 0x4#4
  | .rdstat => 0x5#4
  | .rdfld _ => 0x6#4
  | .rdrxlen => 0x7#4

/-- The IDX field of a command's word: its index operand, or 0 (R51, R54 c). -/
def Instr.indexBits : Instr → Index
  | .nop => 0
  | .ewf idx _ => idx
  | .estart => 0
  | .txpop => 0
  | .rxb _ => 0
  | .rdstat => 0
  | .rdfld idx => idx
  | .rdrxlen => 0

/-- The DATA field of a command's word: EWF's value, RXB's byte in DATA[7:0], or 0 (R51, R54 c). -/
def Instr.dataBits : Instr → Half
  | .nop => 0
  | .ewf _ value => value
  | .estart => 0
  | .txpop => 0
  | .rxb byte => byte.setWidth 16
  | .rdstat => 0
  | .rdfld _ => 0
  | .rdrxlen => 0

/-- The word of a command, with RSV 0 (R51, R52, R54 b). -/
def encode (i : Instr) : Word :=
  packFields i.opcode i.indexBits 0 i.dataBits

end Sys2Proof
end

