-- ==== Sys2Proof/Machine/State.lean ====
section
/-! DEFINITION. The core's state (spec/10_state.md R17), the reasons a step can stop, and the reset state (R32). -/

namespace Sys2Proof.Machine

/-- What the outside presents to the core: a command word on the command port (spec/00_scope.md R11), or the RESET
input (spec/70_reset_and_hazards.md R107). -/
inductive Input where
  | command (w : Word)
  | reset
  deriving DecidableEq, Repr

/-- The state of the core: the six elements of R17, the build parameter N beside them, and two fields of the model's
own that hold what stands at the core's interface. -/
structure State where
  /-- N, fixed when the core is built; no step changes it (spec/00_scope.md R7, R17). DESIGN CHOICE (log 1): carried
  here as data, so that claims range over every N. -/
  n : FieldCount
  /-- EF[0..N-1], the encoder field registers (R18). N of them (DESIGN CHOICE, log 5: a list). -/
  ef : List Half
  /-- TXQ, the bytes of the latched frame not yet output, next byte to leave first (R19). -/
  txq : List Byte
  /-- RXBUF, the receive buffer, oldest byte first (R20). -/
  rxbuf : List Byte
  /-- HAVE: a frame has been closed since reset (R22). -/
  haveFrame : Bool
  /-- CHK_OK: the checksum-valid flag of the last closed frame (R23). -/
  chkOk : Bool
  /-- LF[0..N-1], the fields of the last closed frame (R21). N of them (DESIGN CHOICE, log 5: a list). -/
  lf : List Half
  /-- The MODEL's own, DESIGN CHOICE (log 2): what the host has presented and the core has not yet taken, oldest first. -/
  port : List Input
  /-- The MODEL's own, DESIGN CHOICE (log 3): the response word of the last step, or none if it gave none. -/
  rsp : Option Word
  deriving DecidableEq, Repr

/-- The reasons a step of the core can stop with a fault: there are none. ERR_CMD is a response and not a stop
(spec/60_exceptions.md R92), no other input raises an exception (R93), and every command step completes (R97).
Raised by nothing (DEDUCED, log 7; safe, since a step that never stops can hide no behaviour the spec gives). -/
inductive Fault where
  deriving DecidableEq, Repr

/-- The reasons a step can be refused. -/
inductive Refusal where
  /-- Raised by `exec` alone, in the arm of a command that has no meaning yet. Safe: it stops where the core goes
  on. No arm raises it: all eight commands have their meaning. -/
  | notModelled (mnemonic : String)
  deriving DecidableEq, Repr

/-- A core with N = `n` right after RESET, with nothing presented to it (R32, spec/70_reset_and_hazards.md R107). The
values of `port` and `rsp` are DESIGN CHOICE (logs 2 and 3). -/
def State.resetOf (n : FieldCount) : State where
  n := n
  ef := List.replicate n.toNat 0x0000#16
  txq := []
  rxbuf := []
  haveFrame := false
  chkOk := false
  lf := List.replicate n.toNat 0x0000#16
  port := []
  rsp := none

/-- The machine right after reset (R32, R108). Its N is DESIGN CHOICE (log 1). -/
def State.reset : State := State.resetOf Config.resetFieldCount

end Sys2Proof.Machine
end

