-- ==== Sys2Proof/Machine/Flags.lean ====
section
/-! DEFINITION. The core's flags and what is computed from the state without being stored: STATUS, and the decoder's
two states (spec/10_state.md R26, R27, R29). -/

namespace Sys2Proof.Machine

/-- STATUS from HAVE and CHK_OK (R27): 2 before the first closure, then 1 or 0. -/
def statusOf (haveFrame chkOk : Bool) : BitVec 2 :=
  if !haveFrame then 2#2 else if chkOk then 1#2 else 0#2

/-- STATUS of a state (R27). -/
def State.status (s : State) : BitVec 2 := statusOf s.haveFrame s.chkOk

/-- The decoder's two states (R29). -/
inductive DecoderState where
  | searching
  | inFrame
  deriving DecidableEq, Repr

/-- DecoderState(RXBUF) (R29): IN_FRAME exactly when the buffer holds an unescaped STX. -/
def decoderState (rxbuf : List Byte) : DecoderState :=
  match lastStart rxbuf rxbuf.length with
  | none => .searching
  | some _ => .inFrame

/-- INFRAME: 1 exactly when the decoder is IN_FRAME (R28, R56). -/
def inFrame (rxbuf : List Byte) : Bool := decoderState rxbuf == .inFrame

end Sys2Proof.Machine
end

