-- ==== Sys2Proof/Machine/Operands.lean ====
section
/-! DEFINITION. Operands and results: the register files named by IDX (spec/10_state.md R24), and the response word
with each command's DATA (spec/30_encoding.md R55, R56). -/

namespace Sys2Proof.Machine

/-! ## The register files -/

/-- IDX names a register of a core with N fields exactly when IDX < N (R24). -/
def indexInRange (n : FieldCount) (idx : Index) : Bool := decide (idx.toNat < n.toNat)

/-- Read a register of EF or LF. DESIGN CHOICE (log 5): an index of no register reads as 0; in a
state whose files hold N registers no command asks for one. -/
def readReg (file : List Half) (idx : Index) : Half := file.getD idx.toNat 0x0000#16

/-- Write a register of EF. -/
def writeReg (file : List Half) (idx : Index) (v : Half) : List Half := file.set idx.toNat v

/-! ## The response word -/

/-- RSP = err ∥ zext_15(0) ∥ data (R55). -/
def response (err : Bool) (data : Half) : Word := BitVec.ofBool err ++ 0#15 ++ data

/-- ESTART's DATA: the frame's length (R71). -/
def estartData (length : Nat) : Half := BitVec.ofNat 16 length

/-- TXPOP's DATA for a byte that leaves: VALID at bit 8, the byte below it (R72). -/
def txpopData (b : Byte) : Half := 0x0100#16 ||| b.setWidth 16

/-- RXB's DATA: INFRAME, TRIMMED, CLOSED and STATUS at bits 4, 3, 2 and 1:0 (R56, R79). -/
def rxbData (inframe trimmed closed : Bool) (status : BitVec 2) : Half :=
  (BitVec.ofBool inframe ++ BitVec.ofBool trimmed ++ BitVec.ofBool closed ++ status).setWidth 16

/-- RDSTAT's DATA: STATUS (R80). -/
def rdstatData (status : BitVec 2) : Half := status.setWidth 16

/-- RDRXLEN's DATA: INFRAME at bit 5, the buffer's length at bits 4:0 (R82). -/
def rdrxlenData (inframe : Bool) (length : Nat) : Half :=
  (BitVec.ofBool inframe ++ BitVec.ofNat 5 length).setWidth 16

end Sys2Proof.Machine
end

