-- ==== Sys2Proof/Machine/Ops.lean ====
section
/-! DEFINITION. The operations the commands share: ending a command with its response, the one exception ERR_CMD,
RESET, and the parts of a receive step. -/

namespace Sys2Proof.Machine

/-- The three outcomes of a step of this core. -/
abbrev Result := Host.Outcome State Fault Refusal

/-- End a command normally: `rsp <- (0, data)` (spec/30_encoding.md R55). -/
def complete (s : State) (data : Half) : Result :=
  .next { s with rsp := some (response false data) }

/-- `raise ERR_CMD` (spec/60_exceptions.md R92): the response is 0x80000000 and no state element is written. There is
no trap entry, nothing is saved and nothing is left pending, so there is no return from it either (R100). -/
def raiseErrCmd (s : State) : Result :=
  .next { s with rsp := some (response true 0x0000#16) }

/-- RESET (spec/70_reset_and_hazards.md R107): every state element takes its value of spec/10_state.md R32. N is not
changed, what is still presented stays presented (DESIGN CHOICE, log 2), and there is no response word. -/
def applyReset (s : State) : State :=
  { s with
    ef := List.replicate s.n.toNat 0x0000#16
    txq := []
    rxbuf := []
    haveFrame := false
    chkOk := false
    lf := List.replicate s.n.toNat 0x0000#16
    rsp := none }

/-- A closure (spec/42_decoder.md R77, R79): the decoded fields and checksum flag become the last result, HAVE is
set and RXBUF is cleared. -/
def closeFrame (s : State) (F : List Half) (ok : Bool) : State :=
  { s with lf := F, chkOk := ok, haveFrame := true, rxbuf := [] }

/-- The resynchronization trim (R76): the oldest byte is dropped if the buffer is over MAXBUF. -/
def trim (n : FieldCount) (B : List Byte) : List Byte :=
  if maxBuf n < B.length then B.drop 1 else B

/-- Whether the trim drops a byte (R76). -/
def trims (n : FieldCount) (B : List Byte) : Bool := decide (maxBuf n < B.length)

end Sys2Proof.Machine
end

