-- ==== Sys2Proof/Machine/Control.lean ====
section
/-! DEFINITION. The control command: NOP (spec/43_control.md). -/

namespace Sys2Proof.Machine

/-- NOP (R88): no state changes; the response is 0. -/
def execNop (s : State) : Result := complete s 0x0000#16

end Sys2Proof.Machine
end

