-- ==== Sys2Proof/Machine/Decoder.lean ====
section
/-! DEFINITION. The decoder commands: RXB, RDSTAT, RDFLD, RDRXLEN (spec/42_decoder.md). -/

namespace Sys2Proof.Machine

/-- RXB (R79): append the byte and test closure; a closure stores the decoded frame and clears RXBUF, and otherwise
RXBUF is trimmed. Closure is tested before the trim (spec/70_reset_and_hazards.md R120). The response shows INFRAME
and STATUS as they are after the step. -/
def execRxb (byte : Byte) (s : State) : Result :=
  let B := s.rxbuf ++ [byte]
  match closeSpan s.n B with
  | some (b0, e) =>
    let (F, ok) := decodeSpan s.n B b0 e
    let t := closeFrame s F ok
    complete t (rxbData (inFrame t.rxbuf) false true t.status)
  | none =>
    let t := { s with rxbuf := trim s.n B }
    complete t (rxbData (inFrame t.rxbuf) (trims s.n B) false t.status)

/-- RDSTAT (R80): the response is STATUS; nothing is drained. -/
def execRdstat (s : State) : Result := complete s (rdstatData s.status)

/-- RDFLD (R81): the response is LF[idx]; an index of no register raises ERR_CMD. -/
def execRdfld (idx : Index) (s : State) : Result :=
  if indexInRange s.n idx then complete s (readReg s.lf idx) else raiseErrCmd s

/-- RDRXLEN (R82): the response is INFRAME and the buffer's length. -/
def execRdrxlen (s : State) : Result :=
  complete s (rdrxlenData (inFrame s.rxbuf) s.rxbuf.length)

end Sys2Proof.Machine
end

