-- ==== Sys2Proof/Machine/Encoder.lean ====
section
/-! DEFINITION. The encoder commands: EWF, ESTART, TXPOP (spec/41_encoder.md). -/

namespace Sys2Proof.Machine

/-- EWF (R70): EF[idx] takes the value; an index of no register raises ERR_CMD. -/
def execEwf (idx : Index) (value : Half) (s : State) : Result :=
  if indexInRange s.n idx then
    complete { s with ef := writeReg s.ef idx value } 0x0000#16
  else raiseErrCmd s

/-- ESTART (R71): the frame of the EF registers as they stand replaces TXQ whole; the response is its length. -/
def execEstart (s : State) : Result :=
  complete { s with txq := frame s.ef } (estartData (frame s.ef).length)

/-- TXPOP (R72): TXQ's first byte leaves; an empty TXQ answers VALID = 0 and is no error. -/
def execTxpop (s : State) : Result :=
  match s.txq with
  | [] => complete s 0x0000#16
  | b :: rest => complete { s with txq := rest } (txpopData b)

end Sys2Proof.Machine
end

