-- ==== Sys2Proof/Machine/Dispatch.lean ====
section
/-! DEFINITION. One arm per command (spec/43_control.md R87). -/

namespace Sys2Proof.Machine

open Sys2Proof

def exec (i : Instr) (s : State) : Host.Outcome State Fault Refusal :=
  match i with
  | .nop => Sys2Proof.Machine.execNop s
  | .ewf idx value => Sys2Proof.Machine.execEwf idx value s
  | .estart => Sys2Proof.Machine.execEstart s
  | .txpop => Sys2Proof.Machine.execTxpop s
  | .rxb byte => Sys2Proof.Machine.execRxb byte s
  | .rdstat => Sys2Proof.Machine.execRdstat s
  | .rdfld idx => Sys2Proof.Machine.execRdfld idx s
  | .rdrxlen => Sys2Proof.Machine.execRdrxlen s

end Sys2Proof.Machine
end

