-- ==== Sys2Proof/Machine/Step.lean ====
section
/-! DEFINITION. One step: take what stands first at the port. -/

namespace Sys2Proof.Machine

/-- One step of the core. It takes the oldest input: a command word is decoded, legality first, and run
(spec/43_control.md R87), or answered with ERR_CMD (R89); RESET is applied (spec/70_reset_and_hazards.md R107). With
nothing presented the core is idle and holds its state (spec/60_exceptions.md R106; DESIGN CHOICE, log 4). -/
def step (s : State) : Host.Outcome State Fault Refusal :=
  match s.port with
  | [] => .next { s with rsp := none }
  | .reset :: rest => .next (applyReset { s with port := rest })
  | .command w :: rest =>
    match decode s.n w with
    | .ok i => exec i { s with port := rest }
    | .error _ => raiseErrCmd { s with port := rest }

/-- `s` with the command word presented first, so that the next step runs it (log 2). The word is `w`'s lowest
`nbits` bits, as `decodeTableWord` reads them. -/
def State.withFetchWord (s : State) (nbits w : Nat) : State :=
  { s with port := .command (BitVec.ofNat 32 (w % 2 ^ nbits)) :: s.port }

end Sys2Proof.Machine
end

