-- ==== Sys2Proof/Machine/Assembler.lean ====
section
/-! DEFINITION. The assembler: command lines and pseudo-instructions to command words (spec/30_encoding.md R57, R58).
It acts at assembly time, on the host's side, and the machine does not use it. What R57 leaves open about the text is
DESIGN CHOICE (log 8). -/

namespace Sys2Proof.Machine

/-- Why a line does not assemble. An operand out of range is an assembler error, not a command (R57). -/
inductive AsmError where
  | unknownMnemonic
  | badOperands
  | outOfRange
  deriving DecidableEq, Repr

/-- A line as written: the commands, a raw word, and the pseudo-instructions (R57, R58), with operands as numbers that
are not yet checked against their ranges. -/
inductive AsmLine where
  | blank
  | nop
  | ewf (idx value : Nat)
  | estart
  | txpop
  | rxb (byte : Nat)
  | rdstat
  | rdfld (idx : Nat)
  | rdrxlen
  | rawWord (w : Nat)
  | encodeAll (values : List Nat)
  | rxseq (bytes : List Nat)
  | txdrain (k : Nat)
  | rdall
  deriving DecidableEq, Repr

/-! ## Lines to words -/

/-- `v` as a number of `w` bits, or the assembler error if it is out of range (R57). -/
def operand (w v : Nat) : Except AsmError (BitVec w) :=
  if v < 2 ^ w then .ok (BitVec.ofNat w v) else .error .outOfRange

/-- EWF idx, value (R57). -/
def asmEwf (idx value : Nat) : Except AsmError Word :=
  match operand 2 idx, operand 16 value with
  | .ok i, .ok v => .ok (encode (.ewf i v))
  | .error e, _ => .error e
  | _, .error e => .error e

/-- RXB byte (R57). -/
def asmRxb (byte : Nat) : Except AsmError Word := (operand 8 byte).map (fun b => encode (.rxb b))

/-- RDFLD idx (R57). -/
def asmRdfld (idx : Nat) : Except AsmError Word := (operand 2 idx).map (fun i => encode (.rdfld i))

/-- The words of a list of parts, or the first part's error. -/
def gather : List (Except AsmError Word) → Except AsmError (List Word)
  | [] => .ok []
  | .error e :: _ => .error e
  | .ok w :: rest => (gather rest).map (fun ws => w :: ws)

/-- The words of a line for a core with N fields: one for a command or a raw word, the expansion for a
pseudo-instruction (R58). ENCODE takes exactly N values, RXSEQ at least one byte. -/
def assembleLine (n : FieldCount) : AsmLine → Except AsmError (List Word)
  | .blank => .ok []
  | .nop => .ok [encode .nop]
  | .ewf idx value => gather [asmEwf idx value]
  | .estart => .ok [encode .estart]
  | .txpop => .ok [encode .txpop]
  | .rxb byte => gather [asmRxb byte]
  | .rdstat => .ok [encode .rdstat]
  | .rdfld idx => gather [asmRdfld idx]
  | .rdrxlen => .ok [encode .rdrxlen]
  | .rawWord w => gather [operand 32 w]
  | .encodeAll values =>
    if values.length = n.toNat then
      gather (values.zipIdx.map (fun p => asmEwf p.2 p.1) ++ [.ok (encode .estart)])
    else .error .badOperands
  | .rxseq bytes => if bytes.isEmpty then .error .badOperands else gather (bytes.map asmRxb)
  | .txdrain k => .ok (List.replicate k (encode .txpop))
  | .rdall => gather (.ok (encode .rdstat) :: (List.range n.toNat).map asmRdfld)

/-! ## Text to lines -/

/-- A decimal digit's value. -/
def decDigit (c : Char) : Option Nat :=
  if '0'.toNat ≤ c.toNat ∧ c.toNat ≤ '9'.toNat then some (c.toNat - '0'.toNat) else none

/-- A hexadecimal digit's value, in either case. -/
def hexDigit (c : Char) : Option Nat :=
  if 'A'.toNat ≤ c.toNat ∧ c.toNat ≤ 'F'.toNat then some (c.toNat - 'A'.toNat + 10)
  else if 'a'.toNat ≤ c.toNat ∧ c.toNat ≤ 'f'.toNat then some (c.toNat - 'a'.toNat + 10)
  else decDigit c

/-- The number that digits spell in a base, most significant first, from `acc` on. -/
def digits (digit : Char → Option Nat) (base : Nat) : Nat → List Char → Option Nat
  | acc, [] => some acc
  | acc, c :: cs =>
    match digit c with
    | none => none
    | some d => digits digit base (acc * base + d) cs

/-- A decimal number (R57). -/
def decimal (cs : List Char) : Option Nat := if cs.isEmpty then none else digits decDigit 10 0 cs

/-- A number in decimal, or in hexadecimal with `0x` (R57). -/
def number : List Char → Option Nat
  | '0' :: 'x' :: cs => if cs.isEmpty then none else digits hexDigit 16 0 cs
  | cs => decimal cs

/-- `0xHHHHHHHH`: eight hexadecimal digits (R57). -/
def rawNumber : List Char → Option Nat
  | '0' :: 'x' :: cs => if cs.length = 8 then digits hexDigit 16 0 cs else none
  | _ => none

/-- Space, tab or carriage return. -/
def isBlank (c : Char) : Bool := c == ' ' || c == '\t' || c == '\r'

/-- A text without the blanks around it. -/
def strip (cs : List Char) : List Char := ((cs.dropWhile isBlank).reverse.dropWhile isBlank).reverse

/-- A text cut at every `sep`; `cur` is the piece being read, reversed. -/
def cutAt (sep : Char) : List Char → List Char → List (List Char)
  | cur, [] => [cur.reverse]
  | cur, c :: cs => if c == sep then cur.reverse :: cutAt sep [] cs else cutAt sep (c :: cur) cs

/-- The operands of a line: the pieces between commas, or none if nothing is there. -/
def operands (cs : List Char) : List (List Char) :=
  if (strip cs).isEmpty then [] else (cutAt ',' [] cs).map strip

/-- The numbers that all texts spell, or none if one spells no number. -/
def allNumbers : List (List Char) → Option (List Nat)
  | [] => some []
  | t :: ts =>
    match number t, allNumbers ts with
    | some v, some vs => some (v :: vs)
    | _, _ => none

/-- `line` if there are no operands. -/
def bare (ops : List (List Char)) (line : AsmLine) : Except AsmError AsmLine :=
  if ops.isEmpty then .ok line else .error .badOperands

/-- The line that an optional reading of the operands gives. -/
def orBad : Option AsmLine → Except AsmError AsmLine
  | some l => .ok l
  | none => .error .badOperands

/-- The line of a mnemonic and its operands (R57, R58). -/
def lineOf (mnemonic : List Char) (ops : List (List Char)) : Except AsmError AsmLine :=
  match mnemonic with
  | ['N', 'O', 'P'] => bare ops .nop
  | ['E', 'S', 'T', 'A', 'R', 'T'] => bare ops .estart
  | ['T', 'X', 'P', 'O', 'P'] => bare ops .txpop
  | ['R', 'D', 'S', 'T', 'A', 'T'] => bare ops .rdstat
  | ['R', 'D', 'R', 'X', 'L', 'E', 'N'] => bare ops .rdrxlen
  | ['R', 'D', 'A', 'L', 'L'] => bare ops .rdall
  | ['E', 'W', 'F'] =>
    match ops with
    | [i, v] => orBad ((decimal i).bind fun i => (number v).map fun v => .ewf i v)
    | _ => .error .badOperands
  | ['R', 'X', 'B'] =>
    match ops with
    | [b] => orBad ((number b).map .rxb)
    | _ => .error .badOperands
  | ['R', 'D', 'F', 'L', 'D'] =>
    match ops with
    | [i] => orBad ((decimal i).map .rdfld)
    | _ => .error .badOperands
  | ['.', 'w', 'o', 'r', 'd'] =>
    match ops with
    | [w] => orBad ((rawNumber w).map .rawWord)
    | _ => .error .badOperands
  | ['E', 'N', 'C', 'O', 'D', 'E'] => orBad ((allNumbers ops).map .encodeAll)
  | ['R', 'X', 'S', 'E', 'Q'] => orBad ((allNumbers ops).map .rxseq)
  | ['T', 'X', 'D', 'R', 'A', 'I', 'N'] =>
    match ops with
    | [k] => orBad ((number k).map .txdrain)
    | _ => .error .badOperands
  | _ => .error .unknownMnemonic

/-- One line of text (R57): the comment from `;` on is dropped, then the mnemonic stands before the first blank and
the operands after it, separated by commas. -/
def parseLine (text : List Char) : Except AsmError AsmLine :=
  let code := strip (text.takeWhile (· != ';'))
  if code.isEmpty then .ok .blank
  else lineOf (code.takeWhile (fun c => !isBlank c)) (operands (code.dropWhile (fun c => !isBlank c)))

/-- The words of one line of text. -/
def assembleText (n : FieldCount) (text : List Char) : Except AsmError (List Word) :=
  match parseLine text with
  | .error e => .error e
  | .ok l => assembleLine n l

/-- The words of several lines, or the first line's error. -/
def assembleLines (n : FieldCount) : List (List Char) → Except AsmError (List Word)
  | [] => .ok []
  | t :: ts =>
    match assembleText n t, assembleLines n ts with
    | .ok ws, .ok rest => .ok (ws ++ rest)
    | .error e, _ => .error e
    | _, .error e => .error e

/-- A source of lines, one command a line (R57). -/
def assemble (n : FieldCount) (source : List Char) : Except AsmError (List Word) :=
  assembleLines n (cutAt '\n' [] source)

end Sys2Proof.Machine
end

