-- ==== Sys2Proof/Safety.lean ====
section
/-! DEFINITION. The terms claims use: the invariant of the state between commands, closure and legality said in the
rules' own words, agreement of two states, and what a host does to a core (present inputs, read responses). -/

namespace Sys2Proof.Machine

/-! ## The invariant -/

/-- What holds between any two commands (spec/10_state.md R31), and the sizes of the two register files (R24; log 5). -/
structure StateInv (s : State) : Prop where
  /-- EF has N registers (R24). -/
  efSize : s.ef.length = s.n.toNat
  /-- LF has N registers (R24). -/
  lfSize : s.lf.length = s.n.toNat
  /-- |RXBUF| ≤ MAXBUF (R31 a). -/
  rxbufBound : s.rxbuf.length ≤ maxBuf s.n
  /-- |TXQ| ≤ 4·N + 3 (R31 b). -/
  txqBound : s.txq.length ≤ maxFrame s.n
  /-- If HAVE = 0 then CHK_OK = 0 and every LF register is 0 (R31 c). -/
  freshResult : s.haveFrame = false → s.chkOk = false ∧ s.lf = List.replicate s.n.toNat 0x0000#16

/-! ## Legality and closure in the rules' words -/

/-- A word is illegal (spec/30_encoding.md R54): (a), (b), (c) and (d), as conditions on its fields. -/
def IllegalByRule (n : FieldCount) (w : Word) : Prop :=
  8 ≤ (opField w).toNat ∨ rsvField w ≠ 0 ∨
    ((opField w).toNat ≠ 1 ∧ (opField w).toNat ≠ 6 ∧ idxField w ≠ 0) ∨
    ((opField w).toNat ≠ 1 ∧ (opField w).toNat ≠ 4 ∧ dataField w ≠ 0) ∨
    ((opField w).toNat = 4 ∧ dataHighField w ≠ 0) ∨
    (((opField w).toNat = 1 ∨ (opField w).toNat = 6) ∧ n.toNat ≤ (idxField w).toNat)

/-- Index i of B holds an STX that the parity test does not mark as escaped (spec/40_codec_functions.md R65, R66). -/
def UnescapedStx (B : List Byte) (i : Nat) : Prop := B[i]? = some stx ∧ escRun B i % 2 = 0

/-- The last byte of B closes the span that starts at index b0 (R66, R67): it is an unescaped ETX, b0 is the latest
unescaped STX before it, and at least 2·N + 1 bytes stand strictly between them. -/
structure ClosesAt (n : FieldCount) (B : List Byte) (b0 : Nat) : Prop where
  lastIsEtx : B.getLast? = some etx
  etxUnescaped : escRun B (B.length - 1) % 2 = 0
  isStart : UnescapedStx B b0
  isLatest : ∀ j, b0 < j → j < B.length - 1 → ¬UnescapedStx B j
  room : b0 + 1 + minInterior n ≤ B.length - 1

/-! ## Two states that agree on a half of the core -/

/-- Agreement on what the decoder half reads and writes, and on what is presented (spec/10_state.md R17). -/
structure AgreeDecoder (s t : State) : Prop where
  n : s.n = t.n
  rxbuf : s.rxbuf = t.rxbuf
  haveFrame : s.haveFrame = t.haveFrame
  chkOk : s.chkOk = t.chkOk
  lf : s.lf = t.lf
  port : s.port = t.port

/-- Agreement on what the encoder half reads and writes, and on what is presented (R17). -/
structure AgreeEncoder (s t : State) : Prop where
  n : s.n = t.n
  ef : s.ef = t.ef
  txq : s.txq = t.txq
  port : s.port = t.port

/-! ## The host's side -/

/-- `s` with these inputs presented and no others. -/
def State.present (s : State) (inputs : List Input) : State := { s with port := inputs }

/-- The inputs of a list of commands: their words, in order. -/
def commandInputs (is : List Instr) : List Input := is.map fun i => .command (encode i)

/-- The inputs of a list of command words. -/
def wordInputs (ws : List Word) : List Input := ws.map .command

/-- RXB of each byte, in order: the host hands wire bytes to the core (spec/70_reset_and_hazards.md R111). -/
def rxbInputs (bs : List Byte) : List Input := commandInputs (bs.map .rxb)

/-- EWF of each field from index i on. -/
def ewfCommands : Nat → List Half → List Instr
  | _, [] => []
  | i, f :: fs => .ewf (BitVec.ofNat 2 i) f :: ewfCommands (i + 1) fs

/-- The commands by which a host encodes F and takes k bytes out (spec/41_encoder.md R73). -/
def encodeCommands (F : List Half) (k : Nat) : List Instr :=
  ewfCommands 0 F ++ .estart :: List.replicate k .txpop

/-- Whether a command is one of the encoder's: EWF, ESTART or TXPOP (spec/41_encoder.md). -/
def isEncoderCommand : Instr → Bool
  | .nop => false
  | .ewf _ _ => true
  | .estart => true
  | .txpop => true
  | .rxb _ => false
  | .rdstat => false
  | .rdfld _ => false
  | .rdrxlen => false

/-- The response words of the next k steps, in order. -/
def responses : Nat → State → List Word
  | 0, _ => []
  | k + 1, s =>
    match step s with
    | .next t => t.rsp.toList ++ responses k t
    | .fault _ => []
    | .refused _ => []

/-- The byte a TXPOP response carries, if its VALID bit is set (spec/30_encoding.md R56). -/
def validByte (r : Word) : Option Byte := if r.getLsbD 8 then some (r.extractLsb' 0 8) else none

/-- The bytes that a sequence of commands takes out of TXQ, in order: those of its TXPOPs' VALID responses (R73). -/
def poppedBytes (s : State) (is : List Instr) : List Byte :=
  ((is.zip (responses is.length (s.present (commandInputs is)))).filter (fun p => p.1 == .txpop)).filterMap
    (fun p => validByte p.2)

/-- The CLOSED bit of an RXB response (R56). -/
def closedBit (r : Word) : Bool := r.getLsbD 2

end Sys2Proof.Machine
end

