-- ==== Sys2Proof/Certificates/Slice0/Obligations.lean ====
section
/-! DEFINITION. The statements for the provers. Each docstring names the rule of spec/ it formalises; where the rule is
marked in the spec as derived, or the clause is the model's own choice, it says so. -/

open Sys2Proof Sys2Proof.Machine

/-! ## Encoding (spec/30_encoding.md part 2) -/

/-- The decoder and the encoder are inverse to each other, for every N, word and command: a word decodes to a command
exactly when the command is well formed for N and the word is its encoding. Derived from R51 to R53. -/
def Obligations.DecodeEncodeAgree : Prop :=
  ∀ (n : FieldCount) (w : Word) (i : Instr),
    decode n w = .ok i ↔ i.wellFormed n = true ∧ encode i = w

/-- R52: a word is legal exactly when it matches a row of the opcode map (`CMD & mask == match`) and passes its value
check, and it then decodes to that row's command. -/
def Obligations.DecodeMatchesOpcodeTable : Prop :=
  ∀ (n : FieldCount) (w : Word),
    ((∃ i, decode n w = .ok i) ↔ ∃ r ∈ opcodeRows, r.admits n w = true) ∧
    (∀ r ∈ opcodeRows, r.admits n w = true ↔ ∃ i, decode n w = .ok i ∧ i.mnemonic = r.mnemonic)

/-- R54 and R89: a word is refused by the decoder exactly when (a), (b), (c) or (d) holds, and such a word answers
0x80000000 and writes no state element. -/
def Obligations.IllegalWordAnswersErrorOnly : Prop :=
  (∀ (n : FieldCount) (w : Word), (∃ e, decode n w = .error e) ↔ IllegalByRule n w) ∧
  (∀ (s : State) (w : Word) (rest : List Input), s.port = .command w :: rest → IllegalByRule s.n w →
    step s = .next { s with port := rest, rsp := some 0x80000000#32 })

/-- Words written out from R51 and R52, one for each command, decode to what they spell, and two words of
spec/95_test_vectors.md section 7 are refused. -/
def Obligations.SampleWordsDecode : Prop :=
  decode .two 0x00000000#32 = .ok .nop ∧
  decode .two 0x1400012C#32 = .ok (.ewf 1 300) ∧
  decode .two 0x20000000#32 = .ok .estart ∧
  decode .two 0x30000000#32 = .ok .txpop ∧
  decode .two 0x4000005C#32 = .ok (.rxb 0x5C) ∧
  decode .two 0x50000000#32 = .ok .rdstat ∧
  decode .four 0x6C000000#32 = .ok (.rdfld 3) ∧
  decode .two 0x70000000#32 = .ok .rdrxlen ∧
  decode .two 0x68000000#32 = .error .indexRange ∧
  decode .two 0x10010000#32 = .error .reservedBits

/-! ## The step (spec/43_control.md, spec/60_exceptions.md, spec/70_reset_and_hazards.md) -/

/-- A step takes the first command word presented and runs what it decodes to. From R87; that the word stands at the
head of `port` is the model's choice (log 2). -/
def Obligations.StepRunsDecodedCommand : Prop :=
  ∀ (s : State) (w : Word) (rest : List Input) (i : Instr),
    s.port = .command w :: rest → decode s.n w = .ok i → step s = exec i { s with port := rest }

/-- The well-formed commands reach `exec` through their encodings. From R87 and R51 (log 2). -/
def Obligations.StepRunsEncodedCommand : Prop :=
  ∀ (s : State) (rest : List Input) (i : Instr),
    s.port = .command (encode i) :: rest → i.wellFormed s.n = true → step s = exec i { s with port := rest }

/-- R55 (and the source's forward progress, R97): every command word, legal or not, from every state, gets exactly one
response, with RSP[30:16] = 0, ERR = 1 exactly for an illegal word, and DATA = 0 when ERR = 1; the core then takes the
next input. -/
def Obligations.EveryCommandGetsOneResponse : Prop :=
  ∀ (s : State) (w : Word) (rest : List Input), s.port = .command w :: rest →
    ∃ t r, step s = .next t ∧ t.rsp = some r ∧ t.port = rest ∧ t.n = s.n ∧
      r.extractLsb' 16 15 = 0 ∧
      (r.getLsbD 31 = true ↔ ∃ e, decode s.n w = .error e) ∧
      (r.getLsbD 31 = true → r.extractLsb' 0 16 = 0)

/-- R107: RESET, from every state, sets every state element to its value of R32 and gives no response; N stays, the
decoder is SEARCHING, and the invariant holds. What is still presented stays presented (the model's choice, log 2). -/
def Obligations.ResetInputResetsCore : Prop :=
  ∀ (s : State) (rest : List Input), s.port = .reset :: rest →
    ∃ t, step s = .next t ∧ t = { State.resetOf s.n with port := rest } ∧
      decoderState t.rxbuf = .searching ∧ StateInv t

/-- R32: the reset values, for every N, and STATUS = 2. -/
def Obligations.ResetValues : Prop :=
  ∀ (n : FieldCount),
    (State.resetOf n).n = n ∧
    (State.resetOf n).ef = List.replicate n.toNat 0x0000#16 ∧
    (State.resetOf n).txq = [] ∧
    (State.resetOf n).rxbuf = [] ∧
    (State.resetOf n).haveFrame = false ∧
    (State.resetOf n).status = 2#2 ∧
    (State.resetOf n).chkOk = false ∧
    (State.resetOf n).lf = List.replicate n.toNat 0x0000#16

/-- A core to which nothing is presented holds its state. From R106; the idle step and its cleared response are the
model's choice (log 4). -/
def Obligations.IdleStepHoldsState : Prop :=
  ∀ (s : State), s.port = [] → step s = .next { s with rsp := none }

/-- Inputs run one at a time in the order presented: the run of `first ++ later` is the run of `first`, which does not
depend on `later`, and then the run of `later` from the state it leaves. From R41. -/
def Obligations.CommandsRunInOrder : Prop :=
  ∀ (s : State) (first later : List Input),
    ∃ u, Host.Core.run Sys2Proof.core first.length (s.present first) = .next u ∧ u.port = [] ∧
      Host.Core.run Sys2Proof.core (first.length + later.length) (s.present (first ++ later)) =
        Host.Core.run Sys2Proof.core later.length (u.present later)

/-! ## The encoder (spec/41_encoder.md) -/

/-- R88: NOP answers 0 and changes no state, and every other word with OP = 0x0 is illegal. -/
def Obligations.NopDoesNothing : Prop :=
  (∀ (s : State), exec .nop s = .next { s with rsp := some 0x00000000#32 }) ∧
  (∀ (n : FieldCount) (w : Word), opField w = 0 → w ≠ 0x00000000#32 → ∃ e, decode n w = .error e)

/-- R70: EWF with idx < N completes, writes EF[idx] and nothing else, and answers 0; the register then holds the value
and the others hold what they held. With idx ≥ N it raises ERR_CMD. -/
def Obligations.EwfWritesOneRegister : Prop :=
  ∀ (s : State) (idx : Index) (v : Half),
    (idx.toNat < s.n.toNat → s.ef.length = s.n.toNat →
      ∃ ef', exec (.ewf idx v) s = .next { s with ef := ef', rsp := some 0x00000000#32 } ∧
        ef'.length = s.ef.length ∧ ef'[idx.toNat]? = some v ∧
        ∀ j, j ≠ idx.toNat → ef'[j]? = s.ef[j]?) ∧
    (s.n.toNat ≤ idx.toNat → exec (.ewf idx v) s = .next { s with rsp := some 0x80000000#32 })

/-- R71: ESTART completes, replaces TXQ by the frame of the EF registers, and answers the frame's length, which is
2N + 3 to 4N + 3 and fits DATA[4:0]; nothing else changes. The frame is R46's. -/
def Obligations.EstartLatchesFrame : Prop :=
  ∀ (s : State), s.ef.length = s.n.toNat →
    let P := s.ef.flatMap fun f => [f.extractLsb' 8 8, f.extractLsb' 0 8]
    let fr := [0x02#8] ++ stuff (P ++ [sum8 ([0x02#8] ++ P)]) ++ [0x03#8]
    exec .estart s = .next { s with txq := fr, rsp := some (BitVec.ofNat 32 fr.length) } ∧
      2 * s.n.toNat + 3 ≤ fr.length ∧ fr.length ≤ 4 * s.n.toNat + 3 ∧ fr.length < 2 ^ 5

/-- R72: TXPOP completes; it outputs TXQ[0] with VALID = 1 and removes it, or answers VALID = 0 on an empty TXQ;
nothing else changes. -/
def Obligations.TxpopOutputsNextByte : Prop :=
  (∀ (s : State) (b : Byte) (rest : List Byte), s.txq = b :: rest →
    exec .txpop s = .next { s with txq := rest, rsp := some (BitVec.ofNat 32 (0x100 + b.toNat)) }) ∧
  (∀ (s : State), s.txq = [] → exec .txpop s = .next { s with rsp := some 0x00000000#32 })

/-- The encode function through the port (R73, which the spec marks as derived): if the encoder commands of a sequence
are one EWF for each field, in any order, then ESTART, then |Frame(F)| TXPOPs, with any other commands between them,
then the bytes of the TXPOPs' VALID responses are exactly Frame(F). (The command words stand in `port`: log 2.) -/
def Obligations.EncodeSequenceEmitsFrame : Prop :=
  ∀ (s : State) (F : List Half) (writes is : List Instr),
    s.ef.length = s.n.toNat → F.length = s.n.toNat → writes.Perm (ewfCommands 0 F) →
    is.filter isEncoderCommand = writes ++ .estart :: List.replicate (frame F).length .txpop →
    poppedBytes s is = frame F

/-! ## The wire frame and the codec functions -/

/-- R35: a field travels high byte first, and reading N fields back from the bytes of N fields gives those fields. -/
def Obligations.FieldsTravelBigEndian : Prop :=
  (∀ f : Half, bigEndian f = [BitVec.ofNat 8 (f.toNat / 256), BitVec.ofNat 8 (f.toNat % 256)]) ∧
  (∀ (F : List Half) (i : Nat) (f : Half), F[i]? = some f →
    ((payload F).drop (2 * i)).take 2 = bigEndian f) ∧
  (∀ (n : FieldCount) (F : List Half), F.length = n.toNat → fieldsOf n (payload F) = F)

/-- R48: the layout of the clean frame, the delimiters at the ends of the wire frame, and the wire position of each
interior byte: 1 + the number of interior wire bytes before it. -/
def Obligations.FrameLayout : Prop :=
  ∀ (n : FieldCount) (F : List Half), F.length = n.toNat →
    let clean := [0x02#8] ++ interiorBytes F ++ [0x03#8]
    clean[0]? = some 0x02#8 ∧
    (∀ i f, F[i]? = some f →
      clean[1 + 2 * i]? = some (f.extractLsb' 8 8) ∧ clean[2 + 2 * i]? = some (f.extractLsb' 0 8)) ∧
    clean[2 * n.toNat + 1]? = some (sum8 ([0x02#8] ++ payload F)) ∧
    clean[2 * n.toNat + 2]? = some 0x03#8 ∧ clean.length = 2 * n.toNat + 3 ∧
    (frame F).head? = some 0x02#8 ∧ (frame F).getLast? = some 0x03#8 ∧
    (∀ j b, (interiorBytes F)[j]? = some b →
      let before := (stuff ((interiorBytes F).take j)).length
      ((frame F).drop (1 + before)).take (esc1 b).length = esc1 b ∧
        before = j + ((interiorBytes F).take j).countP isCtrl)

/-- The length of a frame: 2N + 3 + k with k the number of control bytes among its interior bytes, between 2N + 3 and
4N + 3, and both ends are reached. From R49, which the spec marks as derived; the spec's example for k = 0 does not
have k = 0 (log 10), so the lower end is stated without it. -/
def Obligations.FrameLengthRange : Prop :=
  ∀ (n : FieldCount),
    (∀ F : List Half, F.length = n.toNat →
      (frame F).length = 2 * n.toNat + 3 + (interiorBytes F).countP isCtrl ∧
      2 * n.toNat + 3 ≤ (frame F).length ∧ (frame F).length ≤ 4 * n.toNat + 3) ∧
    (∃ F : List Half, F.length = n.toNat ∧ (frame F).length = 2 * n.toNat + 3) ∧
    (frame (List.replicate n.toNat 0x0202#16)).length = 4 * n.toNat + 3

/-- R59: Sum8 is the sum of the bytes modulo 256, 0 for no bytes, with the rule's worked example; a frame's checksum is
Sum8 over 0x02 and the payload. -/
def Obligations.ChecksumIsByteSum : Prop :=
  (∀ S : List Byte, (sum8 S).toNat = (S.map BitVec.toNat).sum % 256) ∧
  sum8 [] = 0x00#8 ∧ sum8 [0x02#8, 0x00#8, 0x01#8, 0x01#8, 0x2C#8] = 0x30#8 ∧
  (∀ F : List Half, checksum F = sum8 ([0x02#8] ++ payload F))

/-- The laws of Sum8 (R60, which the spec marks as derived): (a) order does not matter, (b) concatenation, (c) a
change of one byte always shows, (d) moving a value from one byte to another does not. -/
def Obligations.ChecksumLaws : Prop :=
  (∀ S T : List Byte, S.Perm T → sum8 S = sum8 T) ∧
  (∀ S T : List Byte, sum8 (S ++ T) = sum8 S + sum8 T) ∧
  (∀ (A C : List Byte) (x y : Byte), sum8 (A ++ x :: C) = sum8 (A ++ y :: C) ↔ x = y) ∧
  (∀ (A C D : List Byte) (x y d : Byte),
    sum8 (A ++ (x + d) :: (C ++ (y - d) :: D)) = sum8 (A ++ x :: (C ++ y :: D)))

/-- R61: Stuff sends a control byte as 0x5C and itself, any other byte as itself, and lengthens by the number of
control bytes. -/
def Obligations.StuffEscapesControlBytes : Prop :=
  stuff [] = [] ∧
  (∀ (b : Byte) (S : List Byte), stuff (b :: S) =
    (if b = 0x02#8 ∨ b = 0x03#8 ∨ b = 0x5C#8 then [0x5C#8, b] else [b]) ++ stuff S) ∧
  (∀ S : List Byte, (stuff S).length = S.length + S.countP fun b => b == 0x02#8 || b == 0x03#8 || b == 0x5C#8)

/-- R63: the walk of Unstuff, from the left: an escape pair gives its second byte, whatever it is; any other byte, and
a 0x5C with nothing after it, gives itself. -/
def Obligations.UnstuffWalk : Prop :=
  unstuff [] = [] ∧ unstuff [0x5C#8] = [0x5C#8] ∧
  (∀ (c : Byte) (R : List Byte), unstuff (0x5C#8 :: c :: R) = c :: unstuff R) ∧
  (∀ (b : Byte) (R : List Byte), b ≠ 0x5C#8 → unstuff (b :: R) = b :: unstuff R)

/-- Unstuff undoes Stuff (R64, which the spec marks as derived). -/
def Obligations.UnstuffUndoesStuff : Prop :=
  ∀ S : List Byte, unstuff (stuff S) = S

/-- Run(B, i) is the length of the longest block of 0x5C bytes that ends just before index i, and Esc(B, i) is its
parity. From R65. -/
def Obligations.EscapeRunIsMaximal : Prop :=
  ∀ (B : List Byte) (i : Nat), i ≤ B.length →
    escRun B i ≤ i ∧
    (∀ j, i - escRun B i ≤ j → j < i → B[j]? = some 0x5C#8) ∧
    (∀ k, k ≤ i → (∀ j, i - k ≤ j → j < i → B[j]? = some 0x5C#8) → k ≤ escRun B i) ∧
    (escaped B i = true ↔ escRun B i % 2 = 1)

/-- R66: LastStart(B, e) is the greatest index before e that holds an unescaped STX, and none if there is no such
index. -/
def Obligations.LastStartIsLatest : Prop :=
  ∀ (B : List Byte) (e : Nat),
    (∀ b0, lastStart B e = some b0 ↔
      (b0 < e ∧ UnescapedStx B b0) ∧ ∀ j, j < e → UnescapedStx B j → j ≤ b0) ∧
    (lastStart B e = none ↔ ∀ j, j < e → ¬UnescapedStx B j)

/-- R67: Close(B) accepts the span (b0, e) exactly when e is the last index, B[e] is an unescaped ETX, b0 is the
latest unescaped STX before it, and at least 2N + 1 bytes stand between them. -/
def Obligations.CloseAcceptsExactly : Prop :=
  ∀ (n : FieldCount) (B : List Byte) (b0 e : Nat),
    closeSpan n B = some (b0, e) ↔ e = B.length - 1 ∧ ClosesAt n B b0

/-- The guard of the source on buffers shorter than 2 + 2N bytes never changes an outcome: a closable buffer has at
least 2N + 3 bytes (R68, which the spec marks as derived). -/
def Obligations.ClosableBufferIsLong : Prop :=
  ∀ (n : FieldCount) (B : List Byte) (b0 e : Nat), closeSpan n B = some (b0, e) → 2 * n.toNat + 3 ≤ B.length

/-- Inside a frame the synchronizer sees only the frame's own delimiters, whatever stands before the frame, if that
does not end in an odd run of 0x5C (R69, which the spec marks as derived). -/
def Obligations.FrameShowsOnlyItsDelimiters : Prop :=
  ∀ (n : FieldCount) (P : List Byte) (F : List Half),
    F.length = n.toNat → escRun (P ++ [stx]) P.length % 2 = 0 →
    let B := P ++ frame F
    (∀ i, P.length < i → i < B.length - 1 → B[i]? = some stx ∨ B[i]? = some etx → escaped B i = true) ∧
    escaped B P.length = false ∧ escaped B (B.length - 1) = false ∧
    (∀ j, P.length < j → j ≤ B.length - 1 → lastStart B j = some P.length) ∧
    (∀ j, P.length ≤ j → j < B.length - 1 → closeSpan n (B.take (j + 1)) = none) ∧
    closeSpan n B = some (P.length, B.length - 1)

/-- R74: the raw interior of an accepted span, its trailing escapes in whole pairs, and the fields and checksum flag
that its unstuffed bytes give, for every length of these (R75 is the case of fewer than 2N bytes). -/
def Obligations.SpanDecoding : Prop :=
  (∀ (n : FieldCount) (B : List Byte) (b0 e : Nat), closeSpan n B = some (b0, e) →
    ∃ R : List Byte, R.length = e - b0 - 1 ∧ 2 * n.toNat + 1 ≤ R.length ∧
      (∀ k, k < R.length → R[k]? = B[b0 + 1 + k]?) ∧
      escRun B e % 2 = 0 ∧ escRun B e ≤ R.length ∧
      decodeSpan n B b0 e = decodeInterior n (unstuff R)) ∧
  (∀ (n : FieldCount) (U : List Byte),
    (decodeInterior n U).1.length = n.toNat ∧
    (2 * n.toNat ≤ U.length →
      (∀ i f, (decodeInterior n U).1[i]? = some f →
        ∃ h l : Byte, U[2 * i]? = some h ∧ U[2 * i + 1]? = some l ∧ f.toNat = h.toNat * 256 + l.toNat) ∧
      ((decodeInterior n U).2 = true ↔ U.getLast? = some (sum8 ([0x02#8] ++ U.take (2 * n.toNat))))) ∧
    (U.length < 2 * n.toNat →
      (decodeInterior n U).1 = (decodeInterior n (U ++ List.replicate (2 * n.toNat - U.length) 0x00#8)).1 ∧
      (decodeInterior n U).2 = false))

/-! ## The decoder (spec/42_decoder.md) -/

/-- RXB whose byte closes a span completes: the decoded fields and checksum flag are stored, valid or not, HAVE is
set, RXBUF is cleared, and the response shows CLOSED and the new STATUS; nothing else changes. The closing half of
R79, with R77 and R94. -/
def Obligations.RxbClosureStoresFrame : Prop :=
  ∀ (s : State) (b : Byte) (b0 : Nat), ClosesAt s.n (s.rxbuf ++ [b]) b0 →
    let D := decodeSpan s.n (s.rxbuf ++ [b]) b0 s.rxbuf.length
    exec (.rxb b) s = .next { s with
      lf := D.1, chkOk := D.2, haveFrame := true, rxbuf := [],
      rsp := some (if D.2 then 0x00000005#32 else 0x00000004#32) }

/-- RXB whose byte closes nothing completes: the byte is kept, the oldest byte is dropped if the buffer is over
MAXBUF, flags and LF stay, and the response shows INFRAME, TRIMMED and the held STATUS; nothing else changes. The
other half of R79, with R76 and R95. -/
def Obligations.RxbWithoutClosureKeepsAndTrims : Prop :=
  ∀ (s : State) (b : Byte), (∀ b0, ¬ClosesAt s.n (s.rxbuf ++ [b]) b0) →
    let B := s.rxbuf ++ [b]
    let tooLong := decide (2 + 4 * s.n.toNat < B.length)
    let buf := if tooLong then B.drop 1 else B
    ∃ inf : Bool, (inf = true ↔ ∃ i, UnescapedStx buf i) ∧
      exec (.rxb b) s = .next { s with
        rxbuf := buf,
        rsp := some (BitVec.ofNat 32 (16 * inf.toNat + 8 * tooLong.toNat + s.status.toNat)) } ∧
      (s.rxbuf.length ≤ 2 + 4 * s.n.toNat → buf.length = min B.length (2 + 4 * s.n.toNat))

/-- R80: RDSTAT completes, changes nothing, and answers 2 before the first closure and then 1 or 0 by the checksum
flag. -/
def Obligations.RdstatAnswersStatus : Prop :=
  ∀ (s : State), exec .rdstat s = .next { s with
    rsp := some (if s.haveFrame = false then 0x00000002#32 else if s.chkOk = true then 0x00000001#32 else 0x00000000#32) }

/-- R81: RDFLD with idx < N completes, changes nothing, and answers LF[idx]; with idx ≥ N it raises ERR_CMD. -/
def Obligations.RdfldAnswersField : Prop :=
  ∀ (s : State) (idx : Index),
    (idx.toNat < s.n.toNat → s.lf.length = s.n.toNat →
      ∃ v, s.lf[idx.toNat]? = some v ∧ exec (.rdfld idx) s = .next { s with rsp := some (v.setWidth 32) }) ∧
    (s.n.toNat ≤ idx.toNat → exec (.rdfld idx) s = .next { s with rsp := some 0x80000000#32 })

/-- R82: RDRXLEN completes, changes nothing, and answers |RXBUF| and, at bit 5, whether RXBUF holds an unescaped
STX. -/
def Obligations.RdrxlenAnswersLength : Prop :=
  ∀ (s : State), s.rxbuf.length ≤ maxBuf s.n →
    ∃ inf : Bool, (inf = true ↔ ∃ i, UnescapedStx s.rxbuf i) ∧
      exec .rdrxlen s = .next { s with rsp := some (BitVec.ofNat 32 (32 * inf.toNat + s.rxbuf.length)) }

/-- R27: STATUS is 2 while HAVE = 0, else 1 or 0 by CHK_OK, never 3, and every command but a closing RXB keeps it. -/
def Obligations.StatusChangesOnlyAtClosure : Prop :=
  (∀ s : State, s.status ≠ 3#2 ∧ (s.status = 2#2 ↔ s.haveFrame = false) ∧
    (s.status = 1#2 ↔ s.haveFrame = true ∧ s.chkOk = true) ∧
    (s.status = 0#2 ↔ s.haveFrame = true ∧ s.chkOk = false)) ∧
  (∀ (s t : State) (i : Instr), exec i s = .next t →
    (∀ b b0, i = .rxb b → ¬ClosesAt s.n (s.rxbuf ++ [b]) b0) → t.status = s.status)

/-- R78: doubled ETX gets no special treatment: after any closure a further 0x03 is an ordinary byte in an empty
buffer, and an escaped 0x03 closes nothing. -/
def Obligations.DoubledEtxIsOrdinary : Prop :=
  (∀ s : State, s.rxbuf = [] → exec (.rxb 0x03#8) s = .next { s with
    rxbuf := [0x03#8], rsp := some (BitVec.ofNat 32 s.status.toNat) }) ∧
  (∀ (s t : State), escRun s.rxbuf s.rxbuf.length % 2 = 1 → exec (.rxb 0x03#8) s = .next t →
    t.haveFrame = s.haveFrame ∧ t.chkOk = s.chkOk ∧ t.lf = s.lf ∧ t.rxbuf = trim s.n (s.rxbuf ++ [0x03#8]) ∧
      ∃ r, t.rsp = some r ∧ closedBit r = false)

/-- No byte received before a closure takes part in a later frame (R85, which the spec marks as derived): RXBUF is
empty after a closure, and what RXB then does with the fields, the checksum flag and the buffer depends on nothing but
N, the buffer and the byte. -/
def Obligations.NothingCrossesAClosure : Prop :=
  (∀ (s t : State) (b : Byte) (b0 : Nat), ClosesAt s.n (s.rxbuf ++ [b]) b0 → exec (.rxb b) s = .next t →
    t.rxbuf = []) ∧
  (∀ (s s' t t' : State) (b : Byte), s.n = s'.n → s.rxbuf = s'.rxbuf →
    exec (.rxb b) s = .next t → exec (.rxb b) s' = .next t' →
    t.rxbuf = t'.rxbuf ∧
    ((t.lf = t'.lf ∧ t.chkOk = t'.chkOk ∧ t.haveFrame = t'.haveFrame ∧ t.rsp = t'.rsp) ∨
      (t.lf = s.lf ∧ t.chkOk = s.chkOk ∧ t.haveFrame = s.haveFrame ∧
        t'.lf = s'.lf ∧ t'.chkOk = s'.chkOk ∧ t'.haveFrame = s'.haveFrame)))

/-! ## The whole machine -/

/-- Which command writes which element (from R17 to R26): N and the port never change in a command; EF only by EWF;
TXQ only by ESTART and TXPOP; RXBUF, HAVE, CHK_OK and LF only by RXB, the last three only at a closure; HAVE is 1
after a closure, and no command sets it back to 0. -/
def Obligations.OnlyNamedCommandsWrite : Prop :=
  ∀ (s t : State) (i : Instr), exec i s = .next t →
    t.n = s.n ∧ t.port = s.port ∧
    ((∀ idx v, i ≠ .ewf idx v) → t.ef = s.ef) ∧
    (i ≠ .estart → i ≠ .txpop → t.txq = s.txq) ∧
    ((∀ b, i ≠ .rxb b) → t.rxbuf = s.rxbuf) ∧
    ((∀ b b0, i = .rxb b → ¬ClosesAt s.n (s.rxbuf ++ [b]) b0) →
      t.haveFrame = s.haveFrame ∧ t.chkOk = s.chkOk ∧ t.lf = s.lf) ∧
    (∀ b b0, i = .rxb b → ClosesAt s.n (s.rxbuf ++ [b]) b0 → t.haveFrame = true) ∧
    (s.haveFrame = true → t.haveFrame = true)

/-- HAVE says whether a frame has been closed since reset: after any commands from the reset state of any build, HAVE
is 1 exactly when some RXB among them answered CLOSED = 1. From R22. -/
def Obligations.HaveMeansClosedSinceReset : Prop :=
  ∀ (n : FieldCount) (is : List Instr),
    let s := (State.resetOf n).present (commandInputs is)
    ∃ t, Host.Core.run Sys2Proof.core is.length s = .next t ∧
      (t.haveFrame = true ↔
        ∃ p ∈ is.zip (responses is.length s), (∃ b, p.1 = .rxb b) ∧ closedBit p.2 = true)

/-- The reading commands and NOP have no side effect, so that a repeated read answers the same. From R40. -/
def Obligations.ReadsAreRepeatable : Prop :=
  ∀ (s t : State) (i : Instr), exec i s = .next t →
    (i = .nop ∨ i = .rdstat ∨ (∃ idx, i = .rdfld idx) ∨ i = .rdrxlen) →
    t = { s with rsp := t.rsp } ∧ exec i t = .next t

/-- The decoder half does not depend on the encoder half (from R17): two states that agree on the decoder half still
agree after the same step. -/
def Obligations.DecoderHalfIsIndependent : Prop :=
  ∀ (s s' t t' : State), AgreeDecoder s s' → step s = .next t → step s' = .next t' → AgreeDecoder t t'

/-- The encoder half does not depend on the decoder half (from R17). -/
def Obligations.EncoderHalfIsIndependent : Prop :=
  ∀ (s s' t t' : State), AgreeEncoder s s' → step s = .next t → step s' = .next t' → AgreeEncoder t t'

/-- The reset state of every build meets the invariant, and so does the model's reset state (whose N is the model's
choice, log 1). From R31. -/
def Obligations.ResetMeetsInvariant : Prop :=
  (∀ n : FieldCount, StateInv (State.resetOf n)) ∧ StateInv State.reset

/-- Every step keeps the invariant, from every state that meets it (R31, which the spec marks as derived; the register
file sizes are R24, log 5). -/
def Obligations.StepKeepsInvariant : Prop :=
  ∀ (s t : State), StateInv s → step s = .next t → StateInv t

/-- Resync bound (R84, which the spec marks as derived): from reset, whatever is presented, RXBUF never holds more
than MAXBUF bytes between commands. That no run stops is R97 for command words (derived in the spec) and the model's
reading for RESET and idle steps (logs 7 and 4; a run may go on after the inputs end). -/
def Obligations.ResyncBound : Prop :=
  ∀ (n : FieldCount) (inputs : List Input) (k : Nat),
    ∃ t, Host.Core.run Sys2Proof.core k ((State.resetOf n).present inputs) = .next t ∧
      t.rxbuf.length ≤ 2 + 4 * n.toNat

/-- Round trip (R83, which the spec marks as derived): pushing Frame(F) into a core whose buffer does not end in 0x5C
closes exactly at the last byte, with LF = F, CHK_OK = 1, HAVE = 1, RXBUF = [] and STATUS = 1; the encoder half is
untouched. -/
def Obligations.RoundTrip : Prop :=
  ∀ (s : State) (F : List Half), StateInv s → s.rxbuf.getLast? ≠ some esc → F.length = s.n.toNat →
    (∃ t, Host.Core.run Sys2Proof.core (frame F).length (s.present (rxbInputs (frame F))) = .next t ∧
      t.lf = F ∧ t.chkOk = true ∧ t.haveFrame = true ∧ t.rxbuf = [] ∧ t.status = 1#2 ∧
      t.ef = s.ef ∧ t.txq = s.txq) ∧
    (responses (frame F).length (s.present (rxbInputs (frame F)))).map closedBit =
      List.replicate ((frame F).length - 1) false ++ [true]

/-- Checksum sensitivity (R86, which the spec marks as derived): one data byte of the frame's interior changed to
another data byte leaves the framing as it is, and the frame closes with CHK_OK = 0. (A data byte of an encoded frame
is neither a delimiter nor the second byte of an escape pair, so the rule's other conditions hold by themselves.) -/
def Obligations.ChangedDataByteIsCaught : Prop :=
  ∀ (s : State) (F : List Half) (A C : List Byte) (x y : Byte),
    StateInv s → s.rxbuf.getLast? ≠ some esc → F.length = s.n.toNat →
    frame F = A ++ x :: C → isCtrl x = false → isCtrl y = false → x ≠ y →
    (∃ t, Host.Core.run Sys2Proof.core (frame F).length (s.present (rxbInputs (A ++ y :: C))) = .next t ∧
      t.chkOk = false ∧ t.haveFrame = true ∧ t.rxbuf = [] ∧ t.status = 0#2) ∧
    (responses (frame F).length (s.present (rxbInputs (A ++ y :: C)))).map closedBit =
      List.replicate ((frame F).length - 1) false ++ [true]

/-- Two peers built with the same N: the bytes that one core gives out for F, pushed into the other, give F with a
valid checksum there. Derived from R73, R83 and R110. -/
def Obligations.PeersTransferFields : Prop :=
  ∀ (sender receiver : State) (F : List Half),
    StateInv sender → StateInv receiver → sender.n = receiver.n → F.length = sender.n.toNat →
    receiver.rxbuf.getLast? ≠ some esc →
    let sent := poppedBytes sender (encodeCommands F (frame F).length)
    ∃ t, Host.Core.run Sys2Proof.core sent.length (receiver.present (rxbInputs sent)) = .next t ∧
      t.lf = F ∧ t.chkOk = true ∧ t.status = 1#2

/-! ## The assembler (spec/30_encoding.md R57, R58) -/

/-- The operands of a line in range assemble to the command's word, out of range to an error, and the rule's two
examples assemble from their text. From R57 (the text's details are log 8). -/
def Obligations.AssemblerChecksOperands : Prop :=
  (∀ (n : FieldCount) (idx value : Nat),
    assembleLine n (.ewf idx value) =
      if idx ≤ 3 ∧ value ≤ 65535 then .ok [packFields 0x1#4 (BitVec.ofNat 2 idx) 0 (BitVec.ofNat 16 value)]
      else .error .outOfRange) ∧
  (∀ (n : FieldCount) (byte : Nat),
    assembleLine n (.rxb byte) =
      if byte ≤ 255 then .ok [packFields 0x4#4 0 0 (BitVec.ofNat 16 byte)] else .error .outOfRange) ∧
  (∀ (n : FieldCount) (idx : Nat),
    assembleLine n (.rdfld idx) =
      if idx ≤ 3 then .ok [packFields 0x6#4 (BitVec.ofNat 2 idx) 0 0] else .error .outOfRange) ∧
  (∀ (n : FieldCount) (w : Nat),
    assembleLine n (.rawWord w) = if w < 2 ^ 32 then .ok [BitVec.ofNat 32 w] else .error .outOfRange) ∧
  (∀ n : FieldCount, assembleText n "EWF 1, 300".toList = .ok [0x1400012C#32] ∧
    assembleText n "RXB 0x5C".toList = .ok [0x4000005C#32])

/-- R58: the four expansions. -/
def Obligations.PseudoInstructionsExpand : Prop :=
  (∀ (n : FieldCount) (F : List Half), F.length = n.toNat →
    assembleLine n (.encodeAll (F.map BitVec.toNat)) =
      .ok ((ewfCommands 0 F).map encode ++ [encode .estart])) ∧
  (∀ (n : FieldCount) (bs : List Byte), bs ≠ [] →
    assembleLine n (.rxseq (bs.map BitVec.toNat)) = .ok (bs.map fun b => encode (.rxb b))) ∧
  (∀ (n : FieldCount) (k : Nat), assembleLine n (.txdrain k) = .ok (List.replicate k (encode .txpop))) ∧
  (∀ n : FieldCount, assembleLine n .rdall =
    .ok (encode .rdstat :: (List.range n.toNat).map fun i => encode (.rdfld (BitVec.ofNat 2 i))))

/-- RDALL reads one consistent result: with nothing else presented between its commands, its responses are STATUS and
the N fields of the last closed frame, in order. From R42 and R58. -/
def Obligations.RdallReadsLastResult : Prop :=
  ∀ (s : State) (ws : List Word), StateInv s → assembleLine s.n .rdall = .ok ws →
    responses ws.length (s.present (wordInputs ws)) =
      s.status.setWidth 32 :: s.lf.map (fun f => f.setWidth 32)
end

