-- ==== Sys2Proof/Laws/Codec.lean ====
section
/-! SUPPORT. The codec functions on the shapes of a byte sequence: empty, one byte more in front, one byte more at
the end. Cited instead of unfolding. -/

namespace Sys2Proof.Machine

/-! ## Sum8 -/

@[simp] theorem sum8_nil : sum8 [] = 0x00#8 := rfl

theorem sum8_cons (b : Byte) (S : List Byte) : sum8 (b :: S) = b + sum8 S := by
  simp [sum8, BitVec.ofNat_add]

/-! ## Stuff -/

@[simp] theorem stuff_nil : stuff [] = [] := rfl

theorem stuff_cons (b : Byte) (S : List Byte) : stuff (b :: S) = esc1 b ++ stuff S := rfl

@[simp] theorem stuff_append (S T : List Byte) : stuff (S ++ T) = stuff S ++ stuff T := by
  simp [stuff]

theorem esc1_of_ctrl {b : Byte} (h : isCtrl b = true) : esc1 b = [esc, b] := by simp [esc1, h]

theorem esc1_of_data {b : Byte} (h : isCtrl b = false) : esc1 b = [b] := by simp [esc1, h]

/-! ## Run and Esc -/

@[simp] theorem escRun_zero (B : List Byte) : escRun B 0 = 0 := rfl

/-- The run before an index after B's end is the run before B's end. -/
theorem escRun_of_length_le {B : List Byte} {i : Nat} (h : B.length ≤ i) : escRun B i = escRun B B.length := by
  simp [escRun, List.take_of_length_le h]

/-- Bytes at and after the index do not count. -/
theorem escRun_append_of_le {A : List Byte} (B : List Byte) {i : Nat} (h : i ≤ A.length) :
    escRun (A ++ B) i = escRun A i := by
  simp [escRun, List.take_append_of_le_length h]

/-- The run before B's end, seen one byte at a time: an ESC lengthens it and any other byte ends it. -/
theorem escRun_concat (B : List Byte) (b : Byte) :
    escRun (B ++ [b]) (B.length + 1) = if b = esc then escRun B B.length + 1 else 0 := by
  have e : (B ++ [b]).take (B.length + 1) = B ++ [b] := List.take_of_length_le (by simp)
  unfold escRun
  rw [e, List.take_length, List.reverse_append]
  by_cases h : b = esc <;> simp [h]

/-- The run before index i + 1 from the run before index i. -/
theorem escRun_succ {B : List Byte} {i : Nat} (h : i < B.length) :
    escRun B (i + 1) = if B[i] = esc then escRun B i + 1 else 0 := by
  have h1 := escRun_concat (B.take i) B[i]
  have hl : (B.take i).length = i := by simp; omega
  rw [hl] at h1
  have hc : B.take i ++ [B[i]] = B.take (i + 1) := by simp
  rw [hc] at h1
  have e1 : escRun (B.take (i + 1)) (i + 1) = escRun B (i + 1) := by simp only [escRun, List.take_take, Nat.min_self]
  have e2 : escRun (B.take i) i = escRun B i := by simp only [escRun, List.take_take, Nat.min_self]
  rw [e1, e2] at h1
  exact h1

theorem escRun_le (B : List Byte) (i : Nat) : escRun B i ≤ i := by
  unfold escRun
  refine (List.takeWhile_prefix _).length_le.trans ?_
  simp

/-! ## LastStart -/

@[simp] theorem lastStart_zero (B : List Byte) : lastStart B 0 = none := rfl

theorem lastStart_succ (B : List Byte) (i : Nat) :
    lastStart B (i + 1) = if startAt B i then some i else lastStart B i := rfl

theorem lastStart_eq_some {B : List Byte} {e s : Nat} (h : lastStart B e = some s) :
    s < e ∧ startAt B s = true := by
  induction e with
  | zero => simp at h
  | succ i ih =>
    rw [lastStart_succ] at h
    by_cases hi : startAt B i = true
    · simp only [hi, if_true, Option.some.injEq] at h
      subst h
      exact ⟨Nat.lt_succ_self _, hi⟩
    · simp only [hi] at h
      have := ih h
      exact ⟨Nat.lt_succ_of_lt this.1, this.2⟩

/-! ## Close -/

@[simp] theorem closeSpan_nil (n : FieldCount) : closeSpan n [] = none := rfl

/-- What a span that Close accepts satisfies. -/
theorem closeSpan_eq_some {n : FieldCount} {B : List Byte} {s e : Nat} (h : closeSpan n B = some (s, e)) :
    e = B.length - 1 ∧ B[e]? = some etx ∧ escaped B e = false ∧ lastStart B e = some s ∧
      minInterior n ≤ e - s - 1 := by
  unfold closeSpan at h
  dsimp only at h
  split at h
  · simp at h
  · split at h
    · simp at h
    · split at h
      · simp at h
      · split at h
        · simp at h
        · simp only [Option.some.injEq, Prod.mk.injEq] at h
          obtain ⟨rfl, rfl⟩ := h
          refine ⟨rfl, ?_, ?_, by assumption, by omega⟩
          · simp_all
          · simp_all

/-! ## The frame -/

theorem payload_cons (f : Half) (F : List Half) :
    payload (f :: F) = f.extractLsb' 8 8 :: f.extractLsb' 0 8 :: payload F := rfl

@[simp] theorem payload_length (F : List Half) : (payload F).length = 2 * F.length := by
  induction F with
  | nil => rfl
  | cons f F ih => rw [payload_cons]; simp [ih]; omega

@[simp] theorem interiorBytes_length (F : List Half) : (interiorBytes F).length = 2 * F.length + 1 := by
  simp [interiorBytes]

@[simp] theorem fieldsOf_length (n : FieldCount) (V : List Byte) : (fieldsOf n V).length = n.toNat := by
  simp [fieldsOf]

@[simp] theorem decodeSpan_fst_length (n : FieldCount) (B : List Byte) (s e : Nat) :
    (decodeSpan n B s e).1.length = n.toNat := by
  simp [decodeSpan, decodeInterior]

end Sys2Proof.Machine
end

