-- ==== Sys2Proof/Laws/Decode.lean ====
section
/-! SUPPORT. The fields of a packed word, and a word as its four fields. -/

namespace Sys2Proof

@[simp] theorem opField_packFields (op : BitVec 4) (idx : Index) (rsv : BitVec 10) (data : Half) :
    opField (packFields op idx rsv data) = op := by
  apply BitVec.eq_of_getLsbD_eq
  intro i hi
  have : i < 4 := hi
  simp only [opField, packFields, BitVec.getLsbD_extractLsb', BitVec.getLsbD_append]
  rw [if_neg (by omega), if_neg (by omega), if_neg (by omega)]
  have e : 28 + i - 16 - 10 - 2 = i := by omega
  simp [e, this]

@[simp] theorem idxField_packFields (op : BitVec 4) (idx : Index) (rsv : BitVec 10) (data : Half) :
    idxField (packFields op idx rsv data) = idx := by
  apply BitVec.eq_of_getLsbD_eq
  intro i hi
  have : i < 2 := hi
  simp only [idxField, packFields, BitVec.getLsbD_extractLsb', BitVec.getLsbD_append]
  rw [if_neg (by omega), if_neg (by omega), if_pos (by omega)]
  have e : 26 + i - 16 - 10 = i := by omega
  simp [e, this]

@[simp] theorem rsvField_packFields (op : BitVec 4) (idx : Index) (rsv : BitVec 10) (data : Half) :
    rsvField (packFields op idx rsv data) = rsv := by
  apply BitVec.eq_of_getLsbD_eq
  intro i hi
  have : i < 10 := hi
  simp only [rsvField, packFields, BitVec.getLsbD_extractLsb', BitVec.getLsbD_append]
  rw [if_neg (by omega), if_pos (by omega)]
  have e : 16 + i - 16 = i := by omega
  simp [e, this]

@[simp] theorem dataField_packFields (op : BitVec 4) (idx : Index) (rsv : BitVec 10) (data : Half) :
    dataField (packFields op idx rsv data) = data := by
  apply BitVec.eq_of_getLsbD_eq
  intro i hi
  have : i < 16 := hi
  simp only [dataField, packFields, BitVec.getLsbD_extractLsb', BitVec.getLsbD_append]
  rw [if_pos (by omega)]
  simp [this]

/-- A word is the packing of its four fields. -/
theorem packFields_fields (w : Word) :
    packFields (opField w) (idxField w) (rsvField w) (dataField w) = w := by
  apply BitVec.eq_of_getLsbD_eq
  intro i hi
  simp only [packFields, BitVec.getLsbD_append, opField, idxField, rsvField, dataField, BitVec.getLsbD_extractLsb']
  split
  · simp [*]
  · split
    · rw [decide_eq_true (by omega)]; simp; congr 1; omega
    · split
      · rw [decide_eq_true (by omega)]; simp; congr 1; omega
      · rw [decide_eq_true (by omega)]; simp; congr 1; omega

/-- Two words with the same fields are the same word. -/
theorem word_ext {v w : Word} (hop : opField v = opField w) (hidx : idxField v = idxField w)
    (hrsv : rsvField v = rsvField w) (hdata : dataField v = dataField w) : v = w := by
  rw [← packFields_fields v, ← packFields_fields w, hop, hidx, hrsv, hdata]

/-- DATA[15:8] is the high byte of DATA. -/
theorem dataHighField_eq (w : Word) : dataHighField w = (dataField w).extractLsb' 8 8 := by
  apply BitVec.eq_of_getLsbD_eq
  intro i hi
  have : i < 8 := hi
  simp [dataHighField, dataField, this]

/-- RXB's byte is the low byte of DATA. -/
theorem byteField_eq (w : Word) : byteField w = (dataField w).extractLsb' 0 8 := by
  apply BitVec.eq_of_getLsbD_eq
  intro i hi
  have : i < 8 := hi
  simp [byteField, dataField, this]

/-- `decode` answers an instruction exactly when the word spells it and its value check holds. -/
theorem decode_eq_ok_iff {n : FieldCount} {w : Word} {i : Instr} :
    decode n w = .ok i ↔ decodeWord w = .ok i ∧ i.wellFormed n = true := by
  unfold decode
  cases h : decodeWord w with
  | error e => simp
  | ok j =>
    by_cases hj : j.wellFormed n = true
    · simp only [hj, if_true, Except.ok.injEq]
      exact ⟨fun e => ⟨e, e ▸ hj⟩, fun e => e.1⟩
    · simp only [hj, Except.ok.injEq]
      constructor
      · intro e; exact absurd e (by simp)
      · rintro ⟨rfl, h'⟩; exact absurd h' hj

end Sys2Proof
end

