-- ==== Sys2Proof/Laws/State.lean ====
section
/-! SUPPORT. The fields of a state after each named update, one lemma a field. -/

namespace Sys2Proof.Machine

/-! ## The reset state -/

@[simp] theorem resetOf_n (n : FieldCount) : (State.resetOf n).n = n := rfl

@[simp] theorem resetOf_ef (n : FieldCount) : (State.resetOf n).ef = List.replicate n.toNat 0x0000#16 := rfl

@[simp] theorem resetOf_txq (n : FieldCount) : (State.resetOf n).txq = [] := rfl

@[simp] theorem resetOf_rxbuf (n : FieldCount) : (State.resetOf n).rxbuf = [] := rfl

@[simp] theorem resetOf_haveFrame (n : FieldCount) : (State.resetOf n).haveFrame = false := rfl

@[simp] theorem resetOf_chkOk (n : FieldCount) : (State.resetOf n).chkOk = false := rfl

@[simp] theorem resetOf_lf (n : FieldCount) : (State.resetOf n).lf = List.replicate n.toNat 0x0000#16 := rfl

@[simp] theorem resetOf_port (n : FieldCount) : (State.resetOf n).port = [] := rfl

@[simp] theorem resetOf_rsp (n : FieldCount) : (State.resetOf n).rsp = none := rfl

/-! ## RESET -/

@[simp] theorem applyReset_n (s : State) : (applyReset s).n = s.n := rfl

@[simp] theorem applyReset_ef (s : State) : (applyReset s).ef = List.replicate s.n.toNat 0x0000#16 := rfl

@[simp] theorem applyReset_txq (s : State) : (applyReset s).txq = [] := rfl

@[simp] theorem applyReset_rxbuf (s : State) : (applyReset s).rxbuf = [] := rfl

@[simp] theorem applyReset_haveFrame (s : State) : (applyReset s).haveFrame = false := rfl

@[simp] theorem applyReset_chkOk (s : State) : (applyReset s).chkOk = false := rfl

@[simp] theorem applyReset_lf (s : State) : (applyReset s).lf = List.replicate s.n.toNat 0x0000#16 := rfl

@[simp] theorem applyReset_port (s : State) : (applyReset s).port = s.port := rfl

@[simp] theorem applyReset_rsp (s : State) : (applyReset s).rsp = none := rfl

/-! ## A closure -/

@[simp] theorem closeFrame_n (s : State) (F : List Half) (ok : Bool) : (closeFrame s F ok).n = s.n := rfl

@[simp] theorem closeFrame_ef (s : State) (F : List Half) (ok : Bool) : (closeFrame s F ok).ef = s.ef := rfl

@[simp] theorem closeFrame_txq (s : State) (F : List Half) (ok : Bool) : (closeFrame s F ok).txq = s.txq := rfl

@[simp] theorem closeFrame_rxbuf (s : State) (F : List Half) (ok : Bool) : (closeFrame s F ok).rxbuf = [] := rfl

@[simp] theorem closeFrame_haveFrame (s : State) (F : List Half) (ok : Bool) : (closeFrame s F ok).haveFrame = true := rfl

@[simp] theorem closeFrame_chkOk (s : State) (F : List Half) (ok : Bool) : (closeFrame s F ok).chkOk = ok := rfl

@[simp] theorem closeFrame_lf (s : State) (F : List Half) (ok : Bool) : (closeFrame s F ok).lf = F := rfl

@[simp] theorem closeFrame_port (s : State) (F : List Half) (ok : Bool) : (closeFrame s F ok).port = s.port := rfl

@[simp] theorem closeFrame_rsp (s : State) (F : List Half) (ok : Bool) : (closeFrame s F ok).rsp = s.rsp := rfl

/-! ## A word presented first -/

@[simp] theorem withFetchWord_n (s : State) (nbits w : Nat) : (s.withFetchWord nbits w).n = s.n := rfl

@[simp] theorem withFetchWord_ef (s : State) (nbits w : Nat) : (s.withFetchWord nbits w).ef = s.ef := rfl

@[simp] theorem withFetchWord_txq (s : State) (nbits w : Nat) : (s.withFetchWord nbits w).txq = s.txq := rfl

@[simp] theorem withFetchWord_rxbuf (s : State) (nbits w : Nat) : (s.withFetchWord nbits w).rxbuf = s.rxbuf := rfl

@[simp] theorem withFetchWord_haveFrame (s : State) (nbits w : Nat) : (s.withFetchWord nbits w).haveFrame = s.haveFrame := rfl

@[simp] theorem withFetchWord_chkOk (s : State) (nbits w : Nat) : (s.withFetchWord nbits w).chkOk = s.chkOk := rfl

@[simp] theorem withFetchWord_lf (s : State) (nbits w : Nat) : (s.withFetchWord nbits w).lf = s.lf := rfl

@[simp] theorem withFetchWord_port (s : State) (nbits w : Nat) : (s.withFetchWord nbits w).port = .command (BitVec.ofNat 32 (w % 2 ^ nbits)) :: s.port := rfl

@[simp] theorem withFetchWord_rsp (s : State) (nbits w : Nat) : (s.withFetchWord nbits w).rsp = s.rsp := rfl

end Sys2Proof.Machine
end

