-- ==== Sys2Proof/Laws/Ops.lean ====
section
/-! SUPPORT. What each shared operation and each step can do, said once. -/

namespace Sys2Proof.Machine

/-! ## Ending a command -/

theorem complete_eq_next_iff {s t : State} {data : Half} :
    complete s data = .next t ↔ t = { s with rsp := some (response false data) } := by
  unfold complete
  constructor
  · intro h; exact (Host.Outcome.next.inj h).symm
  · rintro rfl; rfl

theorem raiseErrCmd_eq_next_iff {s t : State} :
    raiseErrCmd s = .next t ↔ t = { s with rsp := some (response true 0x0000#16) } := by
  unfold raiseErrCmd
  constructor
  · intro h; exact (Host.Outcome.next.inj h).symm
  · rintro rfl; rfl

/-! ## The register files -/

@[simp] theorem writeReg_length (file : List Half) (idx : Index) (v : Half) :
    (writeReg file idx v).length = file.length := by simp [writeReg]

theorem readReg_of_lt {file : List Half} {idx : Index} (h : idx.toNat < file.length) :
    readReg file idx = file[idx.toNat] := by simp [readReg, List.getD, h]

/-! ## The trim -/

theorem trim_length_le {n : FieldCount} {B : List Byte} (h : B.length ≤ maxBuf n + 1) :
    (trim n B).length ≤ maxBuf n := by
  unfold trim
  split
  · simp; omega
  · omega

/-! ## RESET -/

/-- RESET leaves the reset state of the same build, with the port as it was. -/
theorem applyReset_eq (s : State) : applyReset s = { State.resetOf s.n with port := s.port } := rfl

/-! ## The commands, by what they can answer -/

theorem execEwf_cases {idx : Index} {v : Half} {s t : State} (h : execEwf idx v s = .next t) :
    (idx.toNat < s.n.toNat ∧ t = { s with ef := writeReg s.ef idx v, rsp := some (response false 0x0000#16) }) ∨
    (s.n.toNat ≤ idx.toNat ∧ t = { s with rsp := some (response true 0x0000#16) }) := by
  unfold execEwf at h
  split at h
  · rename_i hi
    exact .inl ⟨by simpa [indexInRange] using hi, complete_eq_next_iff.mp h⟩
  · rename_i hi
    exact .inr ⟨by simpa [indexInRange] using hi, raiseErrCmd_eq_next_iff.mp h⟩

theorem execRdfld_cases {idx : Index} {s t : State} (h : execRdfld idx s = .next t) :
    (idx.toNat < s.n.toNat ∧ t = { s with rsp := some (response false (readReg s.lf idx)) }) ∨
    (s.n.toNat ≤ idx.toNat ∧ t = { s with rsp := some (response true 0x0000#16) }) := by
  unfold execRdfld at h
  split at h
  · rename_i hi
    exact .inl ⟨by simpa [indexInRange] using hi, complete_eq_next_iff.mp h⟩
  · rename_i hi
    exact .inr ⟨by simpa [indexInRange] using hi, raiseErrCmd_eq_next_iff.mp h⟩

theorem execTxpop_cases {s t : State} (h : execTxpop s = .next t) :
    (s.txq = [] ∧ t = { s with rsp := some (response false 0x0000#16) }) ∨
    (∃ b rest, s.txq = b :: rest ∧
      t = { s with txq := rest, rsp := some (response false (txpopData b)) }) := by
  unfold execTxpop at h
  split at h
  · exact .inl ⟨by assumption, complete_eq_next_iff.mp h⟩
  · rename_i b rest hq
    exact .inr ⟨b, rest, hq, complete_eq_next_iff.mp h⟩

/-- RXB closes a frame, or keeps the buffer and trims it. -/
theorem execRxb_cases {b : Byte} {s t : State} (h : execRxb b s = .next t) :
    (∃ b0 e, closeSpan s.n (s.rxbuf ++ [b]) = some (b0, e) ∧
      t = { s with
        lf := (decodeSpan s.n (s.rxbuf ++ [b]) b0 e).1
        chkOk := (decodeSpan s.n (s.rxbuf ++ [b]) b0 e).2
        haveFrame := true
        rxbuf := []
        rsp := some (response false (rxbData (inFrame []) false true
          (statusOf true (decodeSpan s.n (s.rxbuf ++ [b]) b0 e).2))) }) ∨
    (closeSpan s.n (s.rxbuf ++ [b]) = none ∧
      t = { s with
        rxbuf := trim s.n (s.rxbuf ++ [b])
        rsp := some (response false (rxbData (inFrame (trim s.n (s.rxbuf ++ [b])))
          (trims s.n (s.rxbuf ++ [b])) false s.status)) }) := by
  unfold execRxb at h
  dsimp only at h
  split at h
  · rename_i b0 e hc
    exact .inl ⟨b0, e, hc, complete_eq_next_iff.mp h⟩
  · rename_i hc
    exact .inr ⟨hc, complete_eq_next_iff.mp h⟩

/-! ## The step, by what it takes -/

/-- A step is idle, applies RESET, runs a legal command, or answers an illegal word. -/
theorem step_cases {s t : State} (h : step s = .next t) :
    (s.port = [] ∧ t = { s with rsp := none }) ∨
    (∃ rest, s.port = .reset :: rest ∧ t = applyReset { s with port := rest }) ∨
    (∃ w rest i, s.port = .command w :: rest ∧ decode s.n w = .ok i ∧
      exec i { s with port := rest } = .next t) ∨
    (∃ w rest e, s.port = .command w :: rest ∧ decode s.n w = .error e ∧
      t = { s with port := rest, rsp := some (response true 0x0000#16) }) := by
  unfold step at h
  split at h
  · exact .inl ⟨by assumption, (Host.Outcome.next.inj h).symm⟩
  · rename_i rest hp
    exact .inr (.inl ⟨rest, hp, (Host.Outcome.next.inj h).symm⟩)
  · rename_i w rest hp
    split at h
    · rename_i i hd
      exact .inr (.inr (.inl ⟨w, rest, i, hp, hd, h⟩))
    · rename_i e hd
      exact .inr (.inr (.inr ⟨w, rest, e, hp, hd, raiseErrCmd_eq_next_iff.mp h⟩))

end Sys2Proof.Machine
end

