-- ==== Sys2Proof/Laws/PerInstr.lean ====
section
/-! SUPPORT. Facts about every command as syntax, one lemma a constructor. -/

namespace Sys2Proof.Laws.EncodeLayout

/-- The word of a command carries its row's OP, its index operand or 0 in IDX, 0 in RSV, and its value operand or 0
in DATA (spec/30_encoding.md R51, R52). -/
def Statement (i : Instr) : Prop :=
  opField (encode i) = i.opcode ∧ idxField (encode i) = i.indexBits ∧
    rsvField (encode i) = 0 ∧ dataField (encode i) = i.dataBits

theorem of_instr (i : Instr) : Statement i := by simp [Statement, encode]

theorem nop : Statement .nop := of_instr _
theorem ewf (idx : Index) (value : Half) : Statement (.ewf idx value) := of_instr _
theorem estart : Statement .estart := of_instr _
theorem txpop : Statement .txpop := of_instr _
theorem rxb (byte : Byte) : Statement (.rxb byte) := of_instr _
theorem rdstat : Statement .rdstat := of_instr _
theorem rdfld (idx : Index) : Statement (.rdfld idx) := of_instr _
theorem rdrxlen : Statement .rdrxlen := of_instr _

end Sys2Proof.Laws.EncodeLayout
end

