-- ==== Sys2Proof/Tests/Slice0.lean ====
section
/-! SUPPORT. Tests: ill-formed terms, words written out from the spec's encodings, one step on small states with the
expected results of spec/95_test_vectors.md, and for each statement of the certificate with hypotheses a state and
operands that meet them. -/

namespace Sys2Proof.Tests

open Sys2Proof Sys2Proof.Machine

/-! ## Well-formedness: IDX < N for EWF and RDFLD -/

theorem test_ewf_index_out_of_range_is_ill_formed : (Instr.ewf 2 0).wellFormed .two = false := by decide
theorem test_rdfld_index_out_of_range_is_ill_formed : (Instr.rdfld 3).wellFormed .three = false := by decide
theorem test_last_index_is_well_formed : (Instr.ewf 3 0).wellFormed .four = true := by decide

/-! ## Decoding: words written out bit by bit from R51 and R52 -/

/-- OP 0000 and nothing else. -/
theorem test_decode_nop : decodeWord 0b00000000000000000000000000000000#32 = .ok .nop := by decide
/-- OP 0001, IDX 01, RSV 0, DATA 0000000100101100 (300). -/
theorem test_decode_ewf : decodeWord 0b00010100000000000000000100101100#32 = .ok (.ewf 1 300) := by decide
/-- OP 0010. -/
theorem test_decode_estart : decodeWord 0b00100000000000000000000000000000#32 = .ok .estart := by decide
/-- OP 0011. -/
theorem test_decode_txpop : decodeWord 0b00110000000000000000000000000000#32 = .ok .txpop := by decide
/-- OP 0100, DATA[7:0] 01011100 (0x5C). -/
theorem test_decode_rxb : decodeWord 0b01000000000000000000000001011100#32 = .ok (.rxb 0x5C) := by decide
/-- OP 0101. -/
theorem test_decode_rdstat : decodeWord 0b01010000000000000000000000000000#32 = .ok .rdstat := by decide
/-- OP 0110, IDX 10. -/
theorem test_decode_rdfld : decodeWord 0b01101000000000000000000000000000#32 = .ok (.rdfld 2) := by decide
/-- OP 0111. -/
theorem test_decode_rdrxlen : decodeWord 0b01110000000000000000000000000000#32 = .ok .rdrxlen := by decide

/-- The illegal words of spec/95_test_vectors.md section 7, for N = 2. -/
theorem test_illegal_words_refused :
    ([0x00000001, 0x04000000, 0x80000000, 0xF0000000, 0xFFFFFFFF, 0x10010000, 0x18000000, 0x20000001, 0x24000000,
      0x30000100, 0x40000100, 0x42000041, 0x50000001, 0x68000000, 0x6C000000, 0x60000001, 0x7C000000] :
      List Word).all (fun w => (decode .two w).toOption == none) = true := by decide

/-- A row's word as the host asks for it: the table's bits, N not applied. -/
theorem test_table_word : decodeTableWord 32 0x6C000000 = some (.rdfld 3) := by decide

/-! ## One step -/

/-- The state a step ends in, if it ends in one. -/
def after : Result → Option State
  | .next t => some t
  | .fault _ => none
  | .refused _ => none

/-- A core of N fields with this receive buffer, given one word. -/
def received (n : FieldCount) (buf : List Byte) (w : Word) : State :=
  { State.resetOf n with rxbuf := buf, port := [.command w] }

/-- R88, and section 7: NOP answers 0. -/
theorem test_nop : after (step (State.reset.withFetchWord 32 0x00000000)) =
    some { State.reset with rsp := some 0x00000000#32 } := by decide

/-- R70's example, N = 2. -/
theorem test_ewf : after (step { State.resetOf .two with port := [.command 0x1400012C#32] }) =
    some { State.resetOf .two with ef := [0x0000#16, 0x012C#16], rsp := some 0x00000000#32 } := by decide

/-- R54 (d), N = 2: EWF 2 answers ERR and writes nothing. -/
theorem test_ewf_index_error : after (step { State.resetOf .two with port := [.command 0x18000000#32] }) =
    some { State.resetOf .two with rsp := some 0x80000000#32 } := by decide

/-- R71's example (V1), N = 2; the queue's earlier bytes are lost. -/
theorem test_estart : after (step { State.resetOf .two with
      ef := [0x0001#16, 0x012C#16], txq := [0x5C#8], port := [.command 0x20000000#32] }) =
    some { State.resetOf .two with
      ef := [0x0001#16, 0x012C#16]
      txq := [0x02#8, 0x00#8, 0x01#8, 0x01#8, 0x2C#8, 0x30#8, 0x03#8]
      rsp := some 0x00000007#32 } := by decide

/-- Section 5, N = 1, 0x5C03: a run of three 0x5C in the frame. -/
theorem test_estart_stuffs : after (step { State.resetOf .one with
      ef := [0x5C03#16], port := [.command 0x20000000#32] }) =
    some { State.resetOf .one with
      ef := [0x5C03#16]
      txq := [0x02#8, 0x5C#8, 0x5C#8, 0x5C#8, 0x03#8, 0x61#8, 0x03#8]
      rsp := some 0x00000007#32 } := by decide

/-- Section 5, TXPOP rows 1 and 2: a popped 0x00 answers 0x100. -/
theorem test_txpop : after (step { State.resetOf .two with
      txq := [0x00#8, 0x01#8], port := [.command 0x30000000#32] }) =
    some { State.resetOf .two with txq := [0x01#8], rsp := some 0x00000100#32 } := by decide

/-- Section 5, TXPOP row 8: an empty queue answers 0. -/
theorem test_txpop_empty : after (step { State.resetOf .two with port := [.command 0x30000000#32] }) =
    some { State.resetOf .two with rsp := some 0x00000000#32 } := by decide

/-- R79's example (V2), N = 1: the frame of MAXBUF + 1 bytes closes before the trim. -/
theorem test_rxb_closes :
    after (step (received .one [0x02#8, 0x5C#8, 0x02#8, 0x5C#8, 0x03#8, 0x07#8] 0x40000003#32)) =
    some { State.resetOf .one with
      haveFrame := true, chkOk := true, lf := [0x0203#16], rsp := some 0x00000005#32 } := by decide

/-- H3's last step, N = 3: the ETX finds its STX escaped; the trim then unmasks it. -/
theorem test_rxb_trims :
    after (step (received .three
      [0x5C#8, 0x02#8, 0x5C#8, 0x02#8, 0x5C#8, 0x5C#8, 0x06#8, 0x5C#8, 0x03#8, 0x5C#8, 0x02#8, 0x5C#8, 0x03#8, 0x6E#8]
      0x40000003#32)) =
    some { State.resetOf .three with
      rxbuf := [0x02#8, 0x5C#8, 0x02#8, 0x5C#8, 0x5C#8, 0x06#8, 0x5C#8, 0x03#8, 0x5C#8, 0x02#8, 0x5C#8, 0x03#8,
        0x6E#8, 0x03#8]
      rsp := some 0x0000001A#32 } := by decide

/-- R80: STATUS 1 after a valid closure. -/
theorem test_rdstat : after (step { State.resetOf .one with
      haveFrame := true, chkOk := true, port := [.command 0x50000000#32] }) =
    some { State.resetOf .one with haveFrame := true, chkOk := true, rsp := some 0x00000001#32 } := by decide

/-- R80: STATUS 2 before any closure (DV11). -/
theorem test_rdstat_fresh : after (step { State.resetOf .two with port := [.command 0x50000000#32] }) =
    some { State.resetOf .two with rsp := some 0x00000002#32 } := by decide

/-- R81's example: RDFLD 1 after V1, N = 2. -/
theorem test_rdfld : after (step { State.resetOf .two with
      haveFrame := true, lf := [0x0001#16, 0x012C#16], port := [.command 0x64000000#32] }) =
    some { State.resetOf .two with
      haveFrame := true, lf := [0x0001#16, 0x012C#16], rsp := some 0x0000012C#32 } := by decide

/-- P3: RDFLD 1 with N = 1 answers ERR. -/
theorem test_rdfld_index_error : after (step { State.resetOf .one with port := [.command 0x64000000#32] }) =
    some { State.resetOf .one with rsp := some 0x80000000#32 } := by decide

/-- R82's example, N = 1: INFRAME, length 2. -/
theorem test_rdrxlen : after (step (received .one [0x02#8, 0x41#8] 0x70000000#32)) =
    some { State.resetOf .one with rxbuf := [0x02#8, 0x41#8], rsp := some 0x00000022#32 } := by decide

/-- DV12, N = 1: an unescaped ETX alone is length 1 with INFRAME 0. -/
theorem test_rdrxlen_etx_alone : after (step (received .one [0x03#8] 0x70000000#32)) =
    some { State.resetOf .one with rxbuf := [0x03#8], rsp := some 0x00000001#32 } := by decide

/-- R107: RESET in the middle of a frame, with a command still presented. -/
theorem test_reset : after (step { State.resetOf .two with
      ef := [0x0001#16, 0x0002#16], txq := [0x02#8], rxbuf := [0x02#8, 0x5C#8], haveFrame := true, chkOk := true
      lf := [0x0003#16, 0x0004#16], port := [.reset, .command 0x00000000#32] }) =
    some { State.resetOf .two with port := [.command 0x00000000#32] } := by decide

/-- DV4, N = 2 (R75): a short unstuffed interior is padded and invalid. -/
theorem test_short_interior :
    decodeInterior .two (unstuff [0x5C#8, 0x41#8, 0x5C#8, 0x42#8, 0x43#8]) = ([0x4142#16, 0x4300#16], false) := by
  decide

/-- R57's examples, and a pseudo-instruction with a comment. -/
theorem test_assemble_text :
    assembleText .two "EWF 1, 300".toList = .ok [0x1400012C#32] ∧
    assembleText .two "RXB 0x5C".toList = .ok [0x4000005C#32] ∧
    assembleText .two "ENCODE 1, 300 ; V1".toList = .ok [0x10000001#32, 0x1400012C#32, 0x20000000#32] ∧
    assembleText .two ".word 0x40000100".toList = .ok [0x40000100#32] ∧
    assembleText .two "RXB 256".toList = .error .outOfRange := by decide

/-! ## Witnesses: states and operands that meet the statements' hypotheses -/

/-- A core of one field that has received a whole frame but for its ETX. -/
def almost : State := received .one [0x02#8, 0x12#8, 0x34#8, 0x48#8] 0x40000003#32

theorem reset_meets_invariant (n : FieldCount) : StateInv (State.resetOf n) := by
  constructor <;> cases n <;> decide

/-- StepKeepsInvariant, RoundTrip, RdallReadsLastResult and the others that assume `StateInv`, at its bounds: a full
buffer, a whole longest frame in TXQ and a decoded result. -/
def fullState : State := { State.resetOf .one with
  txq := [0x02#8, 0x5C#8, 0x02#8, 0x5C#8, 0x02#8, 0x06#8, 0x03#8]
  rxbuf := [0x41#8, 0x41#8, 0x41#8, 0x41#8, 0x41#8, 0x41#8]
  haveFrame := true, chkOk := true, lf := [0x0203#16], port := [.command 0x40000041#32] }

theorem witness_invariant_at_bounds : StateInv fullState ∧ fullState.rxbuf.length = maxBuf .one ∧
    fullState.txq.length = maxFrame .one ∧ (after (step fullState)).isSome = true := by
  refine ⟨⟨?_, ?_, ?_, ?_, ?_⟩, ?_, ?_, ?_⟩ <;> decide

/-- StepRunsDecodedCommand, StepRunsEncodedCommand, EveryCommandGetsOneResponse. -/
theorem witness_command_presented : almost.port = .command (encode (.rxb 0x03)) :: [] ∧
    decode almost.n (encode (.rxb 0x03)) = .ok (.rxb 0x03) ∧ (Instr.rxb 0x03).wellFormed almost.n = true := by decide

/-- IllegalWordAnswersErrorOnly: one word for each of (a), (b), (c) twice and (d) at its boundary. -/
theorem witness_illegal_words :
    IllegalByRule .two 0x80000000#32 ∧ IllegalByRule .two 0x10010000#32 ∧ IllegalByRule .two 0x24000000#32 ∧
    IllegalByRule .two 0x40000100#32 ∧ IllegalByRule .two 0x68000000#32 ∧ ¬IllegalByRule .two 0x64000000#32 := by
  refine ⟨?_, ?_, ?_, ?_, ?_, ?_⟩ <;> (unfold IllegalByRule; decide)

theorem witness_illegal_word_presented :
    ({ State.reset with port := [.command 0x80000000#32, .reset] } : State).port = .command 0x80000000#32 :: [.reset] ∧
    IllegalByRule State.reset.n 0x80000000#32 := by
  unfold IllegalByRule; decide

/-- ResetInputResetsCore. -/
theorem witness_reset_presented : ({ fullState with port := [.reset] } : State).port = .reset :: [] := by decide

/-- IdleStepHoldsState. -/
theorem witness_nothing_presented : State.reset.port = [] := by decide

/-- NopDoesNothing: an OP 0 word that is not NOP. -/
theorem witness_op_zero_word : opField 0x00000001#32 = 0 ∧ (0x00000001#32) ≠ 0x00000000#32 := by decide

/-- EwfWritesOneRegister and RdfldAnswersField, on both sides of N. -/
theorem witness_index_at_bound :
    (1#2).toNat < (State.resetOf .two).n.toNat ∧ (State.resetOf .two).ef.length = (State.resetOf .two).n.toNat ∧
    (State.resetOf .two).lf.length = (State.resetOf .two).n.toNat ∧ (State.resetOf .two).n.toNat ≤ (2#2).toNat := by
  decide

/-- TxpopOutputsNextByte: both clauses. -/
theorem witness_txq : ({ State.reset with txq := [0x00#8] } : State).txq = 0x00#8 :: [] ∧ State.reset.txq = [] := by
  decide

/-- EstartLatchesFrame, FieldsTravelBigEndian, FrameLayout, FrameLengthRange, PseudoInstructionsExpand. -/
theorem witness_field_tuple :
    ([0x5C03#16, 0x0202#16] : List Half).length = FieldCount.two.toNat ∧
    ([0x5C03#16, 0x0202#16] : List Half)[1]? = some 0x0202#16 ∧
    (interiorBytes [0x5C03#16, 0x0202#16])[4]? = some (checksum [0x5C03#16, 0x0202#16]) ∧
    (State.resetOf .two).ef.length = (State.resetOf .two).n.toNat ∧ ([0x5C#8] : List Byte) ≠ [] := by decide

/-- EncodeSequenceEmitsFrame: the fields written in falling index order, with an RXB and an illegal read between. -/
theorem witness_encode_sequence :
    (State.resetOf .two).ef.length = (State.resetOf .two).n.toNat ∧
    ([0x4142#16, 0x0000#16] : List Half).length = (State.resetOf .two).n.toNat ∧
    [Instr.ewf 1 0x0000, .ewf 0 0x4142].Perm (ewfCommands 0 [0x4142#16, 0x0000#16]) ∧
    [Instr.ewf 1 0x0000, .rxb 0x02, .ewf 0 0x4142, .estart, .txpop, .rdfld 3, .txpop, .txpop, .txpop, .txpop, .txpop,
        .txpop].filter isEncoderCommand =
      [Instr.ewf 1 0x0000, .ewf 0 0x4142] ++ .estart :: List.replicate (frame [0x4142#16, 0x0000#16]).length .txpop := by
  decide

/-- EscapeRunIsMaximal, at the end of the sequence. -/
theorem witness_run_index : 3 ≤ ([0x5C#8, 0x5C#8, 0x5C#8] : List Byte).length ∧
    escRun [0x5C#8, 0x5C#8, 0x5C#8] 3 = 3 := by decide

/-- FrameShowsOnlyItsDelimiters: bytes before the frame that end in an even run. -/
theorem witness_even_run_before_frame :
    ([0x0203#16] : List Half).length = FieldCount.one.toNat ∧
    escRun ([0x02#8, 0x5C#8, 0x5C#8] ++ [stx]) 3 % 2 = 0 := by decide

/-- ClosableBufferIsLong and SpanDecoding: the shortest closable buffer, and interiors of 2N and fewer bytes. -/
theorem witness_shortest_closable :
    closeSpan .one [0x02#8, 0x41#8, 0x42#8, 0x43#8, 0x03#8] = some (0, 4) ∧
    2 * FieldCount.one.toNat ≤ ([0x41#8, 0x42#8] : List Byte).length ∧
    ([0x41#8] : List Byte).length < 2 * FieldCount.one.toNat := by decide

/-- RxbClosureStoresFrame, OnlyNamedCommandsWrite and NothingCrossesAClosure: a byte that closes a span with no room to spare. -/
theorem witness_closing_byte : ClosesAt almost.n (almost.rxbuf ++ [0x03#8]) 0 := by
  refine ⟨by decide, by decide, by unfold UnescapedStx; decide, ?_, by decide⟩
  have h : ∀ j, j < 4 → 0 < j →
      ¬((almost.rxbuf ++ [0x03#8])[j]? = some stx ∧ escRun (almost.rxbuf ++ [0x03#8]) j % 2 = 0) := by decide
  exact fun j h0 hj => h j hj h0

/-- RxbWithoutClosureKeepsAndTrims: a byte that is no ETX closes nothing, in a full buffer. -/
theorem witness_byte_that_closes_nothing :
    (∀ b0, ¬ClosesAt fullState.n (fullState.rxbuf ++ [0x41#8]) b0) ∧ fullState.rxbuf.length ≤ 2 + 4 * fullState.n.toNat := by
  refine ⟨fun b0 h => ?_, by decide⟩
  have := h.lastIsEtx
  revert this
  decide

/-- RdrxlenAnswersLength: a full buffer. -/
theorem witness_full_buffer : fullState.rxbuf.length ≤ maxBuf fullState.n := by decide

/-- DoubledEtxIsOrdinary: an empty buffer, and one that ends in an odd run. -/
theorem witness_doubled_etx : State.reset.rxbuf = [] ∧
    escRun (received .one [0x02#8, 0x00#8, 0x01#8, 0x5C#8] 0).rxbuf 4 % 2 = 1 ∧
    (after (exec (.rxb 0x03) (received .one [0x02#8, 0x00#8, 0x01#8, 0x5C#8] 0))).isSome = true := by decide

/-- OnlyNamedCommandsWrite, StatusChangesOnlyAtClosure, ReadsAreRepeatable: a command that ends in a next state. -/
theorem witness_read_command : (after (exec .rdstat fullState)).isSome = true := by decide

/-- DecoderHalfIsIndependent: two states that differ in the encoder half. -/
theorem witness_agree_decoder : AgreeDecoder almost { almost with ef := [0x5C5C#16], txq := [0x03#8] } ∧
    (after (step almost)).isSome = true := ⟨⟨rfl, rfl, rfl, rfl, rfl, rfl⟩, by decide⟩

/-- EncoderHalfIsIndependent: two states that differ in the decoder half. -/
theorem witness_agree_encoder : AgreeEncoder almost { almost with rxbuf := [], haveFrame := true, lf := [0x5C5C#16] } ∧
    (after (step almost)).isSome = true := ⟨⟨rfl, rfl, rfl, rfl⟩, by decide⟩

/-- RoundTrip and PeersTransferFields: a full buffer of other bytes, and the longest frame. -/
theorem witness_round_trip : StateInv fullState ∧ fullState.rxbuf.getLast? ≠ some esc ∧
    ([0x0202#16] : List Half).length = fullState.n.toNat ∧ (frame [0x0202#16]).length = maxFrame fullState.n ∧
    (State.resetOf .one).n = fullState.n :=
  ⟨witness_invariant_at_bounds.1, by decide, by decide, by decide, by decide⟩

/-- ChangedDataByteIsCaught: the checksum byte of a frame, changed in one bit. -/
theorem witness_changed_byte : StateInv (State.resetOf .one) ∧ (State.resetOf .one).rxbuf.getLast? ≠ some esc ∧
    ([0x1234#16] : List Half).length = (State.resetOf .one).n.toNat ∧
    frame [0x1234#16] = [0x02#8, 0x12#8, 0x34#8] ++ 0x48#8 :: [0x03#8] ∧
    isCtrl 0x48#8 = false ∧ isCtrl 0x49#8 = false ∧ (0x48#8) ≠ 0x49#8 :=
  ⟨reset_meets_invariant .one, by decide, by decide, by decide, by decide, by decide, by decide⟩

/-- RdallReadsLastResult: RDALL assembles for the state's N. -/
theorem witness_rdall : StateInv fullState ∧
    assembleLine fullState.n .rdall = .ok [0x50000000#32, 0x60000000#32] :=
  ⟨witness_invariant_at_bounds.1, by decide⟩

end Sys2Proof.Tests
end

section
/-! SUPPORT. The length of a frame (spec/30_encoding.md R49): one byte more for each control byte of the interior, and
never all of the interior bytes are control bytes. -/

namespace Sys2Proof

theorem FieldCount.toNat_pos (n : FieldCount) : 1 ≤ n.toNat := by cases n <;> decide

theorem FieldCount.toNat_le_four (n : FieldCount) : n.toNat ≤ 4 := by cases n <;> decide

end Sys2Proof

namespace Sys2Proof.Machine

theorem esc1_length (b : Byte) : (esc1 b).length = if isCtrl b then 2 else 1 := by
  unfold esc1
  split <;> rfl

/-- Stuffing adds one byte for each control byte (R61). -/
theorem stuff_length (S : List Byte) : (stuff S).length = S.length + S.countP isCtrl := by
  induction S with
  | nil => rfl
  | cons b S ih =>
    rw [stuff_cons, List.length_append, esc1_length, ih, List.countP_cons, List.length_cons]
    split <;> omega

theorem frame_length (F : List Half) :
    (frame F).length = 2 * F.length + 3 + (interiorBytes F).countP isCtrl := by
  simp only [frame, List.length_cons, List.length_append, List.length_nil, stuff_length, interiorBytes_length]
  omega

theorem isCtrl_iff_toNat {b : Byte} : isCtrl b = true ↔ b.toNat = 2 ∨ b.toNat = 3 ∨ b.toNat = 92 := by
  simp [isCtrl, stx, etx, esc, ← BitVec.toNat_inj, or_assoc]

/-- The sum of control bytes: 2 for each, 1 more for each ETX, 90 more for each ESC. -/
theorem sum_toNat_of_all_isCtrl {S : List Byte} (h : ∀ b ∈ S, isCtrl b = true) :
    ∃ etxs escs, etxs + escs ≤ S.length ∧
      (S.map BitVec.toNat).sum = 2 * S.length + etxs + 90 * escs := by
  induction S with
  | nil => exact ⟨0, 0, by simp⟩
  | cons b S ih =>
    obtain ⟨hb, hS⟩ := List.forall_mem_cons.mp h
    obtain ⟨etxs, escs, hle, hsum⟩ := ih hS
    simp only [List.map_cons, List.sum_cons, List.length_cons, hsum]
    rcases isCtrl_iff_toNat.mp hb with hv | hv | hv
    · exact ⟨etxs, escs, by omega, by omega⟩
    · exact ⟨etxs + 1, escs, by omega, by omega⟩
    · exact ⟨etxs, escs + 1, by omega, by omega⟩

/-- If every payload byte is a control byte, the checksum of at most four fields is none: this is why a frame has at
most 4N + 3 bytes and not 4N + 4. -/
theorem isCtrl_checksum_of_all_isCtrl {F : List Half} (hpos : 1 ≤ F.length) (hfour : F.length ≤ 4)
    (h : ∀ b ∈ payload F, isCtrl b = true) : isCtrl (checksum F) = false := by
  obtain ⟨etxs, escs, hle, hsum⟩ := sum_toNat_of_all_isCtrl h
  have hchk : (checksum F).toNat = (2 + (4 * F.length + etxs + 90 * escs)) % 256 := by
    simp only [checksum, sum8, List.map_cons, List.sum_cons, hsum, payload_length, BitVec.toNat_ofNat, stx]
    omega
  rw [payload_length] at hle
  have hescs : escs ≤ 8 := by omega
  rw [Bool.eq_false_iff, Ne, isCtrl_iff_toNat, hchk]
  interval_cases escs <;> omega

/-- At most 2N of the 2N + 1 interior bytes are control bytes. -/
theorem countP_isCtrl_interiorBytes_le {F : List Half} (hpos : 1 ≤ F.length) (hfour : F.length ≤ 4) :
    (interiorBytes F).countP isCtrl ≤ 2 * F.length := by
  have hlen : (payload F).countP isCtrl ≤ 2 * F.length := by
    simpa using List.countP_le_length (p := isCtrl) (l := payload F)
  rw [interiorBytes, List.countP_append, List.countP_singleton]
  by_cases hall : ∀ b ∈ payload F, isCtrl b = true
  · simpa [isCtrl_checksum_of_all_isCtrl hpos hfour hall] using hlen
  · have hne : (payload F).countP isCtrl ≠ 2 * F.length := by
      rwa [← payload_length, Ne, List.countP_eq_length]
    split <;> omega

/-- The upper end of R49. -/
theorem frame_length_le_maxFrame {n : FieldCount} {F : List Half} (h : F.length = n.toNat) :
    (frame F).length ≤ maxFrame n := by
  have hpos := n.toNat_pos
  have hfour := n.toNat_le_four
  have hk := countP_isCtrl_interiorBytes_le (F := F) (by omega) (by omega)
  rw [frame_length, maxFrame]
  omega

end Sys2Proof.Machine
end

section
/-! SUPPORT. Close and LastStart in the rules' own words (spec/40_codec_functions.md R65 to R67). -/

namespace Sys2Proof.Machine

theorem startAt_iff {B : List Byte} {i : Nat} : startAt B i = true ↔ UnescapedStx B i := by
  simp [startAt, escaped, UnescapedStx]

theorem lastStart_eq_some_iff {B : List Byte} {e b0 : Nat} :
    lastStart B e = some b0 ↔
      b0 < e ∧ UnescapedStx B b0 ∧ ∀ j, b0 < j → j < e → ¬UnescapedStx B j := by
  induction e with
  | zero => simp
  | succ e ih =>
    rw [lastStart_succ]
    by_cases hs : startAt B e = true
    · rw [if_pos hs, Option.some.injEq]
      rw [startAt_iff] at hs
      constructor
      · rintro rfl
        exact ⟨Nat.lt_succ_self _, hs, fun j hlt hle => absurd hlt (by omega)⟩
      · rintro ⟨hlt, -, hlatest⟩
        by_contra hne
        exact hlatest e (by omega) (Nat.lt_succ_self _) hs
    · rw [if_neg hs, ih]
      rw [startAt_iff] at hs
      constructor
      · rintro ⟨hlt, hb0, hlatest⟩
        refine ⟨by omega, hb0, fun j hj hje => ?_⟩
        rcases Nat.lt_succ_iff_lt_or_eq.mp hje with hj' | rfl
        · exact hlatest j hj hj'
        · exact hs
      · rintro ⟨hlt, hb0, hlatest⟩
        have hne : b0 ≠ e := fun h => hs (h ▸ hb0)
        exact ⟨by omega, hb0, fun j hj hje => hlatest j hj (by omega)⟩

theorem closeSpan_eq_some_iff {n : FieldCount} {B : List Byte} {b0 e : Nat} :
    closeSpan n B = some (b0, e) ↔ e = B.length - 1 ∧ ClosesAt n B b0 := by
  constructor
  · intro h
    obtain ⟨rfl, hetx, hesc, hlast, hroom⟩ := closeSpan_eq_some h
    obtain ⟨hlt, hstx, hlatest⟩ := lastStart_eq_some_iff.mp hlast
    have hmin : 1 ≤ minInterior n := Nat.le_add_left 1 _
    refine ⟨rfl, ?_, ?_, hstx, hlatest, by omega⟩
    · rwa [List.getLast?_eq_getElem?]
    · simpa [escaped] using hesc
  · rintro ⟨rfl, hetx, hrun, hstx, hlatest, hroom⟩
    rw [List.getLast?_eq_getElem?] at hetx
    have hlast : lastStart B (B.length - 1) = some b0 :=
      lastStart_eq_some_iff.mpr ⟨by omega, hstx, hlatest⟩
    have hlong : ¬B.length - 1 - b0 - 1 < minInterior n := by omega
    simp [closeSpan, hetx, escaped, hrun, hlast, hlong]

theorem closeSpan_eq_none_iff {n : FieldCount} {B : List Byte} :
    closeSpan n B = none ↔ ∀ b0, ¬ClosesAt n B b0 := by
  rw [Option.eq_none_iff_forall_ne_some]
  constructor
  · intro h b0 hc
    exact h _ (closeSpan_eq_some_iff.mpr ⟨rfl, hc⟩)
  · rintro h ⟨b0, e⟩ hc
    exact h b0 (closeSpan_eq_some_iff.mp hc).2

end Sys2Proof.Machine
end

section
/-! SUPPORT. What a command can do, said once for `exec`: every later fact about all commands is read off these
cases. -/

namespace Sys2Proof.Machine

/-- The effects of the commands: `CommandEffect s i t` when command `i` leads from `s` to `t`. -/
inductive CommandEffect (s : State) : Instr → State → Prop
  /-- A command other than RXB that writes nothing: NOP, a read, a TXPOP on an empty TXQ, or an ERR_CMD. -/
  | answers (i : Instr) (r : Word) (notRxb : ∀ b, i ≠ .rxb b) : CommandEffect s i { s with rsp := some r }
  /-- EWF (R70). -/
  | writes (idx : Index) (v : Half) (inRange : idx.toNat < s.n.toNat) :
    CommandEffect s (.ewf idx v) { s with ef := writeReg s.ef idx v, rsp := some (response false 0x0000#16) }
  /-- ESTART (R71). -/
  | latches :
    CommandEffect s .estart
      { s with txq := frame s.ef, rsp := some (response false (estartData (frame s.ef).length)) }
  /-- TXPOP with a byte in TXQ (R72). -/
  | pops (b : Byte) (rest : List Byte) (head : s.txq = b :: rest) :
    CommandEffect s .txpop { s with txq := rest, rsp := some (response false (txpopData b)) }
  /-- RXB whose byte closes a span (R77, R79). -/
  | closes (b : Byte) (b0 : Nat) (D : List Half × Bool) (closure : ClosesAt s.n (s.rxbuf ++ [b]) b0)
    (decoded : D = decodeSpan s.n (s.rxbuf ++ [b]) b0 s.rxbuf.length) :
    CommandEffect s (.rxb b)
      { closeFrame s D.1 D.2 with
        rsp := some (response false (rxbData (inFrame []) false true (statusOf true D.2))) }
  /-- RXB whose byte closes nothing (R76, R79). -/
  | keeps (b : Byte) (noClosure : ∀ b0, ¬ClosesAt s.n (s.rxbuf ++ [b]) b0) :
    CommandEffect s (.rxb b)
      { s with
        rxbuf := trim s.n (s.rxbuf ++ [b])
        rsp := some (response false (rxbData (inFrame (trim s.n (s.rxbuf ++ [b])))
          (trims s.n (s.rxbuf ++ [b])) false s.status)) }

theorem execRxb_effect {b : Byte} {s t : State} (h : execRxb b s = .next t) : CommandEffect s (.rxb b) t := by
  rcases execRxb_cases h with ⟨b0, e, hc, rfl⟩ | ⟨hc, rfl⟩
  · obtain ⟨rfl, hclosure⟩ := closeSpan_eq_some_iff.mp hc
    have hend : (s.rxbuf ++ [b]).length - 1 = s.rxbuf.length := by simp
    exact .closes b b0 _ hclosure (congrArg (decodeSpan s.n (s.rxbuf ++ [b]) b0) hend)
  · exact .keeps b (closeSpan_eq_none_iff.mp hc)

/-- `exec` has the effect of its command. -/
theorem exec_effect {i : Instr} {s t : State} (h : exec i s = .next t) : CommandEffect s i t := by
  cases i with
  | nop =>
    obtain rfl := complete_eq_next_iff.mp h
    exact .answers _ _ nofun
  | ewf idx v =>
    rcases execEwf_cases h with ⟨hi, rfl⟩ | ⟨-, rfl⟩
    · exact .writes idx v hi
    · exact .answers _ _ nofun
  | estart =>
    obtain rfl := complete_eq_next_iff.mp h
    exact .latches
  | txpop =>
    rcases execTxpop_cases h with ⟨-, rfl⟩ | ⟨b, rest, hq, rfl⟩
    · exact .answers _ _ nofun
    · exact .pops b rest hq
  | rxb b => exact execRxb_effect h
  | rdstat =>
    obtain rfl := complete_eq_next_iff.mp h
    exact .answers _ _ nofun
  | rdfld idx =>
    rcases execRdfld_cases h with ⟨-, rfl⟩ | ⟨-, rfl⟩
    · exact .answers _ _ nofun
    · exact .answers _ _ nofun
  | rdrxlen =>
    obtain rfl := complete_eq_next_iff.mp h
    exact .answers _ _ nofun

/-- Every command completes (spec/60_exceptions.md R97). -/
theorem exec_completes (i : Instr) (s : State) : ∃ t, exec i s = .next t := by
  cases i with
  | nop | estart | rdstat | rdrxlen => exact ⟨_, rfl⟩
  | ewf idx v =>
    simp only [exec, execEwf]
    split <;> exact ⟨_, rfl⟩
  | txpop =>
    simp only [exec, execTxpop]
    split <;> exact ⟨_, rfl⟩
  | rxb b =>
    simp only [exec, execRxb]
    split <;> exact ⟨_, rfl⟩
  | rdfld idx =>
    simp only [exec, execRdfld]
    split <;> exact ⟨_, rfl⟩

end Sys2Proof.Machine
end

section
/-! SUPPORT and CERTIFICATE. The invariant (spec/10_state.md R31): the reset state meets it, every command and every
step keep it. -/

namespace Sys2Proof.Machine

/-- The invariant does not speak of what stands at the core's interface. -/
theorem StateInv.interface {s : State} (h : StateInv s) (port : List Input) (rsp : Option Word) :
    StateInv { s with port := port, rsp := rsp } :=
  ⟨h.efSize, h.lfSize, h.rxbufBound, h.txqBound, h.freshResult⟩

theorem stateInv_resetOf (n : FieldCount) : StateInv (State.resetOf n) where
  efSize := List.length_replicate
  lfSize := List.length_replicate
  rxbufBound := Nat.zero_le _
  txqBound := Nat.zero_le _
  freshResult := fun _ => ⟨rfl, rfl⟩

theorem stateInv_applyReset (s : State) : StateInv (applyReset s) :=
  (stateInv_resetOf s.n).interface s.port none

theorem StateInv.of_effect {s t : State} {i : Instr} (hs : StateInv s) (h : CommandEffect s i t) : StateInv t := by
  cases h with
  | answers => exact hs.interface _ _
  | writes idx v => exact { hs with efSize := (writeReg_length _ _ _).trans hs.efSize }
  | latches => exact { hs with txqBound := frame_length_le_maxFrame hs.efSize }
  | pops b rest head =>
    have hrest : rest.length ≤ s.txq.length := by simp [head]
    exact { hs with txqBound := hrest.trans hs.txqBound }
  | closes b b0 D closure decoded =>
    exact
      { efSize := hs.efSize
        lfSize := by rw [decoded]; exact decodeSpan_fst_length _ _ _ _
        rxbufBound := Nat.zero_le _
        txqBound := hs.txqBound
        freshResult := nofun }
  | keeps b =>
    have hlen : (s.rxbuf ++ [b]).length ≤ maxBuf s.n + 1 := by simpa using hs.rxbufBound
    exact { hs with rxbufBound := trim_length_le hlen }

/-- Settles O45: the idle step and an illegal word touch the interface only, RESET restores the reset state, and
every command's effect keeps each clause; ESTART needs R49's bound on a frame. -/
theorem stepKeepsInvariant : Obligations.StepKeepsInvariant := by
  intro s t hs h
  rcases step_cases h with ⟨-, rfl⟩ | ⟨rest, -, rfl⟩ | ⟨w, rest, i, -, -, hexec⟩ | ⟨w, rest, e, -, -, rfl⟩
  · exact hs.interface _ _
  · exact stateInv_applyReset _
  · exact (hs.interface rest s.rsp).of_effect (exec_effect hexec)
  · exact hs.interface _ _

/-- Settles O44: the reset state of a build meets every clause, `State.reset` being one of them. -/
theorem resetMeetsInvariant : Obligations.ResetMeetsInvariant :=
  ⟨stateInv_resetOf, stateInv_resetOf _⟩

/-- Settles O9: each element by its reset law, and STATUS from HAVE = 0. -/
theorem resetValues : Obligations.ResetValues := fun n =>
  ⟨resetOf_n n, resetOf_ef n, resetOf_txq n, resetOf_rxbuf n, resetOf_haveFrame n, rfl, resetOf_chkOk n, resetOf_lf n⟩

end Sys2Proof.Machine
end

section
/-! SUPPORT and CERTIFICATE. Which command writes which element (spec/10_state.md R17 to R27). -/

namespace Sys2Proof.Machine

section
variable {s t : State} {i : Instr}

theorem CommandEffect.n (h : CommandEffect s i t) : t.n = s.n := by cases h <;> rfl

theorem CommandEffect.port (h : CommandEffect s i t) : t.port = s.port := by cases h <;> rfl

theorem CommandEffect.ef (h : CommandEffect s i t) (hi : ∀ idx v, i ≠ .ewf idx v) : t.ef = s.ef := by
  cases h with
  | writes idx v => exact absurd rfl (hi idx v)
  | answers | latches | pops | closes | keeps => rfl

theorem CommandEffect.txq (h : CommandEffect s i t) (hstart : i ≠ .estart) (hpop : i ≠ .txpop) : t.txq = s.txq := by
  cases h with
  | latches => exact absurd rfl hstart
  | pops => exact absurd rfl hpop
  | answers | writes | closes | keeps => rfl

theorem CommandEffect.rxbuf (h : CommandEffect s i t) (hi : ∀ b, i ≠ .rxb b) : t.rxbuf = s.rxbuf := by
  cases h with
  | closes b => exact absurd rfl (hi b)
  | keeps b => exact absurd rfl (hi b)
  | answers | writes | latches | pops => rfl

/-- Without a closure the last result stays: HAVE, CHK_OK and LF. -/
theorem CommandEffect.result (h : CommandEffect s i t)
    (hi : ∀ b b0, i = .rxb b → ¬ClosesAt s.n (s.rxbuf ++ [b]) b0) :
    t.haveFrame = s.haveFrame ∧ t.chkOk = s.chkOk ∧ t.lf = s.lf := by
  cases h with
  | closes b b0 D closure => exact absurd closure (hi b b0 rfl)
  | answers | writes | latches | pops | keeps => exact ⟨rfl, rfl, rfl⟩

theorem CommandEffect.haveFrame_of_closesAt {b : Byte} {b0 : Nat} (h : CommandEffect s (.rxb b) t)
    (hc : ClosesAt s.n (s.rxbuf ++ [b]) b0) : t.haveFrame = true := by
  cases h with
  | answers _ _ notRxb => exact absurd rfl (notRxb b)
  | closes => rfl
  | keeps _ noClosure => exact absurd hc (noClosure b0)

theorem CommandEffect.haveFrame_mono (h : CommandEffect s i t) (hs : s.haveFrame = true) : t.haveFrame = true := by
  cases h with
  | closes => rfl
  | answers | writes | latches | pops | keeps => exact hs

end

/-- Settles O39: each clause is read off the effects of the commands. -/
theorem onlyNamedCommandsWrite : Obligations.OnlyNamedCommandsWrite := by
  intro s t i hexec
  have h := exec_effect hexec
  refine ⟨h.n, h.port, h.ef, h.txq, h.rxbuf, h.result, ?_, h.haveFrame_mono⟩
  rintro b b0 rfl hc
  exact h.haveFrame_of_closesAt hc

/-- R27's codes, over the four values of HAVE and CHK_OK. -/
theorem statusOf_codes (haveFrame chkOk : Bool) :
    statusOf haveFrame chkOk ≠ 3#2 ∧ (statusOf haveFrame chkOk = 2#2 ↔ haveFrame = false) ∧
    (statusOf haveFrame chkOk = 1#2 ↔ haveFrame = true ∧ chkOk = true) ∧
    (statusOf haveFrame chkOk = 0#2 ↔ haveFrame = true ∧ chkOk = false) := by
  revert haveFrame chkOk
  decide

/-- Settles O36: STATUS is a function of HAVE and CHK_OK, which only a closure writes. -/
theorem statusChangesOnlyAtClosure : Obligations.StatusChangesOnlyAtClosure := by
  refine ⟨fun s => statusOf_codes s.haveFrame s.chkOk, fun s t i hexec hi => ?_⟩
  obtain ⟨hhave, hchk, -⟩ := (exec_effect hexec).result hi
  rw [State.status, hhave, hchk, State.status]

end Sys2Proof.Machine
end

section
/-! SUPPORT and CERTIFICATE. The two halves of the core do not depend on each other (spec/10_state.md R17). -/

namespace Sys2Proof.Machine

/-! ## The step, by what stands at the port -/

theorem step_of_port_nil {s : State} (hp : s.port = []) : step s = .next { s with rsp := none } := by
  simp only [step, hp]

theorem step_of_port_reset {s : State} {rest : List Input} (hp : s.port = .reset :: rest) :
    step s = .next (applyReset { s with port := rest }) := by
  simp only [step, hp]

theorem step_of_decode_ok {s : State} {w : Word} {rest : List Input} {i : Instr} (hp : s.port = .command w :: rest)
    (hd : decode s.n w = .ok i) : step s = exec i { s with port := rest } := by
  simp only [step, hp, hd]

theorem step_of_decode_error {s : State} {w : Word} {rest : List Input} {e : Illegal}
    (hp : s.port = .command w :: rest) (hd : decode s.n w = .error e) :
    step s = .next { s with port := rest, rsp := some (response true 0x0000#16) } := by
  simp only [step, hp, hd]
  rfl

/-! ## Relations that a step keeps -/

/-- A relation on states that fixes what a step takes and decodes with, says nothing of responses, and is kept by
RESET and by every command. -/
structure CommandCongruence (R : State → State → Prop) : Prop where
  n : ∀ {s s'}, R s s' → s.n = s'.n
  port : ∀ {s s'}, R s s' → s.port = s'.port
  interface : ∀ {s s'}, R s s' → ∀ port rsp rsp',
    R { s with port := port, rsp := rsp } { s' with port := port, rsp := rsp' }
  reset : ∀ {s s'}, R s s' → R (applyReset s) (applyReset s')
  command : ∀ {s s' t t' i}, R s s' → exec i s = .next t → exec i s' = .next t' → R t t'

/-- Two states in such a relation take the same input and stay in it. -/
theorem CommandCongruence.step {R : State → State → Prop} (hR : CommandCongruence R) {s s' t t' : State}
    (hs : R s s') (h : step s = .next t) (h' : step s' = .next t') : R t t' := by
  have hn := hR.n hs
  have hport := hR.port hs
  rcases step_cases h with ⟨hp, rfl⟩ | ⟨rest, hp, rfl⟩ | ⟨w, rest, i, hp, hd, hexec⟩ | ⟨w, rest, e, hp, hd, rfl⟩
  · have hp' : s'.port = [] := hport ▸ hp
    rw [step_of_port_nil hp'] at h'
    obtain rfl := Host.Outcome.next.inj h'
    rw [hp, hp']
    exact hR.interface hs [] none none
  · rw [step_of_port_reset (hport ▸ hp)] at h'
    obtain rfl := Host.Outcome.next.inj h'
    exact hR.reset (hR.interface hs rest s.rsp s'.rsp)
  · rw [step_of_decode_ok (hport ▸ hp) (hn ▸ hd)] at h'
    exact hR.command (hR.interface hs rest s.rsp s'.rsp) hexec h'
  · rw [step_of_decode_error (hport ▸ hp) (hn ▸ hd)] at h'
    obtain rfl := Host.Outcome.next.inj h'
    exact hR.interface hs rest _ _

/-! ## The decoder half -/

theorem AgreeDecoder.symm {s t : State} (h : AgreeDecoder s t) : AgreeDecoder t s :=
  ⟨h.n.symm, h.rxbuf.symm, h.haveFrame.symm, h.chkOk.symm, h.lf.symm, h.port.symm⟩

theorem AgreeDecoder.trans {s t u : State} (h : AgreeDecoder s t) (h' : AgreeDecoder t u) : AgreeDecoder s u :=
  ⟨h.n.trans h'.n, h.rxbuf.trans h'.rxbuf, h.haveFrame.trans h'.haveFrame, h.chkOk.trans h'.chkOk,
    h.lf.trans h'.lf, h.port.trans h'.port⟩

/-- A command other than RXB writes nothing of the decoder half. -/
theorem CommandEffect.agreeDecoder {s t : State} {i : Instr} (h : CommandEffect s i t) (hi : ∀ b, i ≠ .rxb b) :
    AgreeDecoder t s := by
  obtain ⟨hhave, hchk, hlf⟩ := h.result fun b _ hb => absurd hb (hi b)
  exact ⟨h.n, h.rxbuf hi, hhave, hchk, hlf, h.port⟩

theorem execRxb_agreeDecoder {b : Byte} {s s' t t' : State} (hs : AgreeDecoder s s') (h : execRxb b s = .next t)
    (h' : execRxb b s' = .next t') : AgreeDecoder t t' := by
  obtain ⟨hn, hbuf, hhave, hchk, hlf, hport⟩ := hs
  rcases execRxb_cases h with ⟨b0, e, hc, rfl⟩ | ⟨hc, rfl⟩ <;>
    rcases execRxb_cases h' with ⟨b0', e', hc', rfl⟩ | ⟨hc', rfl⟩ <;>
    rw [← hn, ← hbuf, hc] at hc'
  · obtain ⟨rfl, rfl⟩ : b0 = b0' ∧ e = e' := by simpa using hc'
    rw [← hn, ← hbuf]
    exact ⟨rfl, rfl, rfl, rfl, rfl, hport⟩
  · cases hc'
  · cases hc'
  · rw [← hn, ← hbuf]
    exact ⟨rfl, rfl, hhave, hchk, hlf, hport⟩

theorem exec_agreeDecoder {i : Instr} {s s' t t' : State} (hs : AgreeDecoder s s') (h : exec i s = .next t)
    (h' : exec i s' = .next t') : AgreeDecoder t t' := by
  by_cases hi : ∃ b, i = .rxb b
  · obtain ⟨b, rfl⟩ := hi
    exact execRxb_agreeDecoder hs h h'
  · have hne : ∀ b, i ≠ .rxb b := fun b hb => hi ⟨b, hb⟩
    exact ((exec_effect h).agreeDecoder hne).trans (hs.trans ((exec_effect h').agreeDecoder hne).symm)

theorem commandCongruence_agreeDecoder : CommandCongruence AgreeDecoder where
  n h := h.n
  port h := h.port
  interface h _ _ _ := ⟨h.n, h.rxbuf, h.haveFrame, h.chkOk, h.lf, rfl⟩
  reset h := ⟨h.n, rfl, rfl, rfl, by simp [h.n], h.port⟩
  command := exec_agreeDecoder

/-- Settles O42: agreement on the decoder half is kept by RESET and by every command, RXB being the one that writes
it. -/
theorem decoderHalfIsIndependent : Obligations.DecoderHalfIsIndependent :=
  fun _ _ _ _ hs h h' => commandCongruence_agreeDecoder.step hs h h'

/-! ## The encoder half -/

theorem AgreeEncoder.symm {s t : State} (h : AgreeEncoder s t) : AgreeEncoder t s :=
  ⟨h.n.symm, h.ef.symm, h.txq.symm, h.port.symm⟩

theorem AgreeEncoder.trans {s t u : State} (h : AgreeEncoder s t) (h' : AgreeEncoder t u) : AgreeEncoder s u :=
  ⟨h.n.trans h'.n, h.ef.trans h'.ef, h.txq.trans h'.txq, h.port.trans h'.port⟩

/-- A command that is none of the encoder's writes nothing of the encoder half. -/
theorem CommandEffect.agreeEncoder {s t : State} {i : Instr} (h : CommandEffect s i t)
    (hi : isEncoderCommand i = false) : AgreeEncoder t s := by
  refine ⟨h.n, h.ef ?_, h.txq ?_ ?_, h.port⟩
  · rintro idx v rfl; cases hi
  · rintro rfl; cases hi
  · rintro rfl; cases hi

theorem execEwf_agreeEncoder {idx : Index} {v : Half} {s s' t t' : State} (hs : AgreeEncoder s s')
    (h : execEwf idx v s = .next t) (h' : execEwf idx v s' = .next t') : AgreeEncoder t t' := by
  obtain ⟨hn, hef, htxq, hport⟩ := hs
  rcases execEwf_cases h with ⟨hi, rfl⟩ | ⟨hi, rfl⟩ <;>
    rcases execEwf_cases h' with ⟨hi', rfl⟩ | ⟨hi', rfl⟩ <;>
    rw [← hn] at hi'
  · exact ⟨hn, by rw [hef], htxq, hport⟩
  · exact absurd hi (Nat.not_lt.mpr hi')
  · exact absurd hi' (Nat.not_lt.mpr hi)
  · exact ⟨hn, hef, htxq, hport⟩

theorem execTxpop_agreeEncoder {s s' t t' : State} (hs : AgreeEncoder s s')
    (h : execTxpop s = .next t) (h' : execTxpop s' = .next t') : AgreeEncoder t t' := by
  obtain ⟨hn, hef, htxq, hport⟩ := hs
  rcases execTxpop_cases h with ⟨hq, rfl⟩ | ⟨b, rest, hq, rfl⟩ <;>
    rcases execTxpop_cases h' with ⟨hq', rfl⟩ | ⟨b', rest', hq', rfl⟩ <;>
    rw [← htxq, hq] at hq'
  · exact ⟨hn, hef, htxq, hport⟩
  · cases hq'
  · cases hq'
  · exact ⟨hn, hef, (List.cons.inj hq').2, hport⟩

theorem exec_agreeEncoder {i : Instr} {s s' t t' : State} (hs : AgreeEncoder s s') (h : exec i s = .next t)
    (h' : exec i s' = .next t') : AgreeEncoder t t' := by
  cases i with
  | ewf idx v => exact execEwf_agreeEncoder hs h h'
  | estart =>
    obtain rfl := complete_eq_next_iff.mp h
    obtain rfl := complete_eq_next_iff.mp h'
    exact ⟨hs.n, hs.ef, congrArg frame hs.ef, hs.port⟩
  | txpop => exact execTxpop_agreeEncoder hs h h'
  | nop | rxb | rdstat | rdfld | rdrxlen =>
    exact ((exec_effect h).agreeEncoder rfl).trans (hs.trans ((exec_effect h').agreeEncoder rfl).symm)

theorem commandCongruence_agreeEncoder : CommandCongruence AgreeEncoder where
  n h := h.n
  port h := h.port
  interface h _ _ _ := ⟨h.n, h.ef, h.txq, rfl⟩
  reset h := ⟨h.n, by simp [h.n], rfl, h.port⟩
  command := exec_agreeEncoder

/-- Settles O43: agreement on the encoder half is kept by RESET and by every command, EWF, ESTART and TXPOP being
those that write it. -/
theorem encoderHalfIsIndependent : Obligations.EncoderHalfIsIndependent :=
  fun _ _ _ _ hs h h' => commandCongruence_agreeEncoder.step hs h h'

end Sys2Proof.Machine
end

section
/-! SUPPORT. A command's word decodes to the command, so that a presented command runs `exec`. -/

namespace Sys2Proof

/-- `decodeWord` reads an encoding back, whatever N (spec/30_encoding.md R51 to R53). -/
theorem decodeWord_encode (i : Instr) : decodeWord (encode i) = .ok i := by
  cases i with
  | rxb byte =>
    obtain ⟨hop, hidx, hrsv, hdata⟩ := Laws.EncodeLayout.rxb byte
    have hhigh : dataHighField (encode (.rxb byte)) = 0 := by
      rw [dataHighField_eq, hdata]
      ext j hj
      simp [Instr.dataBits]
    have hbyte : byteField (encode (.rxb byte)) = byte := by
      rw [byteField_eq, hdata]
      ext j hj
      simpa [Instr.dataBits, hj] using fun _ => Nat.lt_of_lt_of_le hj (by decide)
    simp [decodeWord, whenUnusedZero, hop, hidx, hrsv, hhigh, hbyte, Instr.opcode, Instr.indexBits]
  | nop | ewf | estart | txpop | rdstat | rdfld | rdrxlen =>
    simp [decodeWord, encode, whenUnusedZero, Instr.opcode, Instr.indexBits, Instr.dataBits]

theorem decode_encode (n : FieldCount) (i : Instr) :
    decode n (encode i) = if i.wellFormed n then .ok i else .error .indexRange := by
  simp only [decode, decodeWord_encode]

end Sys2Proof

namespace Sys2Proof.Machine

/-- A command whose value check fails is one that raises ERR_CMD when run. -/
theorem exec_of_not_wellFormed {i : Instr} {s : State} (h : i.wellFormed s.n = false) : exec i s = raiseErrCmd s := by
  cases i with
  | ewf idx v => exact if_neg (by simpa [indexInRange, Instr.wellFormed] using h)
  | rdfld idx => exact if_neg (by simpa [indexInRange, Instr.wellFormed] using h)
  | nop | estart | txpop | rxb | rdstat | rdrxlen => cases h

/-- A presented command runs, well formed or not: `exec` raises the ERR_CMD that the decoder would. -/
theorem step_present_encode (s : State) (i : Instr) (rest : List Input) :
    step (s.present (.command (encode i) :: rest)) = exec i (s.present rest) := by
  have hd := decode_encode s.n i
  cases hw : i.wellFormed s.n with
  | true =>
    rw [hw] at hd
    exact step_of_decode_ok rfl hd
  | false =>
    rw [hw] at hd
    rw [exec_of_not_wellFormed (s := s.present rest) hw]
    exact step_of_decode_error rfl hd

/-- A run takes one step and goes on from the state it leaves. -/
theorem run_succ_of_step {s u : State} (k : Nat) (h : step s = .next u) :
    Host.Core.run Sys2Proof.core (k + 1) s = Host.Core.run Sys2Proof.core k u := by
  have hcore : Sys2Proof.core.step s = .next u := h
  simp only [Host.Core.run, hcore]

/-- The first of a sequence of presented commands completes with its effect and leaves the others presented. -/
theorem step_first_command (s : State) (i : Instr) (is : List Instr) :
    ∃ u, step (s.present (commandInputs (i :: is))) = .next u ∧ CommandEffect (s.present (commandInputs is)) i u ∧
      u.present (commandInputs is) = u := by
  obtain ⟨u, hexec⟩ := exec_completes i (s.present (commandInputs is))
  have heff := exec_effect hexec
  have hport : u.port = commandInputs is := heff.port
  refine ⟨u, (step_present_encode s i _).trans hexec, heff, ?_⟩
  rw [State.present, ← hport]

end Sys2Proof.Machine
end

section
/-! CERTIFICATE. HAVE since reset (spec/10_state.md R22). -/

namespace Sys2Proof.Machine

@[simp] theorem closedBit_rxb_response (inframe trimmed closed : Bool) (status : BitVec 2) :
    closedBit (response false (rxbData inframe trimmed closed status)) = closed := by
  revert inframe trimmed closed status
  decide

/-- A command answers, and HAVE is 1 after it exactly when it was 1 or the command is an RXB that answers
CLOSED = 1. -/
theorem CommandEffect.haveFrame_iff_closed {s t : State} {i : Instr} (h : CommandEffect s i t) :
    ∃ r, t.rsp = some r ∧
      (t.haveFrame = true ↔ s.haveFrame = true ∨ (∃ b, i = .rxb b) ∧ closedBit r = true) := by
  cases h with
  | answers _ r notRxb => exact ⟨r, rfl, by simp [notRxb]⟩
  | closes => exact ⟨_, rfl, by simp⟩
  | keeps => exact ⟨_, rfl, by simp⟩
  | writes | latches | pops => exact ⟨_, rfl, by simp⟩

/-- Some RXB of a sequence of commands answers CLOSED = 1, the commands being run from `s`. -/
def SomeRxbCloses (s : State) (is : List Instr) : Prop :=
  ∃ p ∈ is.zip (responses is.length (s.present (commandInputs is))), (∃ b, p.1 = .rxb b) ∧ closedBit p.2 = true

theorem not_someRxbCloses_nil (s : State) : ¬SomeRxbCloses s [] := by simp [SomeRxbCloses]

/-- The first command's response, and then the others from the state it leaves. -/
theorem someRxbCloses_cons {s u : State} {i : Instr} {is : List Instr} {r : Word}
    (hstep : step (s.present (commandInputs (i :: is))) = .next u) (hu : u.present (commandInputs is) = u)
    (hr : u.rsp = some r) :
    SomeRxbCloses s (i :: is) ↔ ((∃ b, i = .rxb b) ∧ closedBit r = true) ∨ SomeRxbCloses u is := by
  simp [SomeRxbCloses, responses, hstep, hr, hu]

/-- HAVE after a run of commands from any state. -/
theorem run_haveFrame_iff (s : State) (is : List Instr) :
    ∃ t, Host.Core.run Sys2Proof.core is.length (s.present (commandInputs is)) = .next t ∧
      (t.haveFrame = true ↔ s.haveFrame = true ∨ SomeRxbCloses s is) := by
  induction is generalizing s with
  | nil => exact ⟨_, rfl, by simp [not_someRxbCloses_nil, State.present]⟩
  | cons i is ih =>
    obtain ⟨u, hstep, heff, hu⟩ := step_first_command s i is
    obtain ⟨r, hr, hhave⟩ := heff.haveFrame_iff_closed
    obtain ⟨t, hrun, ht⟩ := ih u
    refine ⟨t, ?_, ?_⟩
    · rw [hu] at hrun
      exact (run_succ_of_step is.length hstep).trans hrun
    · rw [ht, hhave, someRxbCloses_cons hstep hu hr, or_assoc]
      rfl

/-- Settles O40: by induction on the commands, from any state; after reset HAVE is 0. -/
theorem haveMeansClosedSinceReset : Obligations.HaveMeansClosedSinceReset := by
  intro n is
  obtain ⟨t, hrun, ht⟩ := run_haveFrame_iff (State.resetOf n) is
  exact ⟨t, hrun, ht.trans (or_iff_right Bool.false_ne_true)⟩

end Sys2Proof.Machine
end

section
/-! SUPPORT and CERTIFICATE. Fields on the wire: high byte first, in frame order (spec/20_memory.md R35). -/

namespace Sys2Proof.Machine

theorem bigEndian_eq_ofNat (f : Half) :
    bigEndian f = [BitVec.ofNat 8 (f.toNat / 256), BitVec.ofNat 8 (f.toNat % 256)] := by
  have hhigh : f.extractLsb' 8 8 = BitVec.ofNat 8 (f.toNat / 256) :=
    BitVec.eq_of_toNat_eq (by simp [Nat.shiftRight_eq_div_pow])
  have hlow : f.extractLsb' 0 8 = BitVec.ofNat 8 (f.toNat % 256) :=
    BitVec.eq_of_toNat_eq (by simp)
  rw [bigEndian, hhigh, hlow]

/-- From byte 2i on, the payload is field i's bytes and then those of the later fields. -/
theorem payload_drop {F : List Half} {i : Nat} {f : Half} (h : F[i]? = some f) :
    (payload F).drop (2 * i) = bigEndian f ++ payload (F.drop (i + 1)) := by
  induction F generalizing i with
  | nil => cases h
  | cons g F ih =>
    cases i with
    | zero =>
      obtain rfl : g = f := by simpa using h
      rfl
    | succ i => exact ih h

/-- Field i of a byte sequence is the first field of what stands from byte 2i on. -/
theorem fieldAt_eq_fieldAt_drop (V : List Byte) (i : Nat) : fieldAt V i = fieldAt (V.drop (2 * i)) 0 := by
  simp [fieldAt, List.getD]

@[simp] theorem fieldAt_bigEndian_append (f : Half) (V : List Byte) : fieldAt (bigEndian f ++ V) 0 = f := by
  have hjoin : f.extractLsb' 8 8 ++ f.extractLsb' 0 8 = f.extractLsb' 0 16 :=
    BitVec.extractLsb'_append_extractLsb'_eq_extractLsb' rfl
  exact hjoin.trans BitVec.extractLsb'_eq_self

theorem fieldAt_payload {F : List Half} {i : Nat} {f : Half} (h : F[i]? = some f) : fieldAt (payload F) i = f := by
  rw [fieldAt_eq_fieldAt_drop, payload_drop h, fieldAt_bigEndian_append]

theorem fieldsOf_payload {n : FieldCount} {F : List Half} (h : F.length = n.toNat) :
    fieldsOf n (payload F) = F := by
  refine List.ext_getElem (by simp [h]) fun i hi hF => ?_
  simpa [fieldsOf] using fieldAt_payload (List.getElem?_eq_getElem hF)

/-- Settles O17: byte 2i of the payload begins field i's two bytes, which read back as the field. -/
theorem fieldsTravelBigEndian : Obligations.FieldsTravelBigEndian :=
  ⟨bigEndian_eq_ofNat, fun _ _ f h => by rw [payload_drop h]; exact List.take_left' rfl,
    fun _ _ => fieldsOf_payload⟩

end Sys2Proof.Machine
end

section
/-! SUPPORT. What a command does not read: the response of the step before (spec/30_encoding.md R55) and what is
presented after it (spec/20_memory.md R41). -/

namespace Sys2Proof.Machine

/-- No command reads the last response. -/
theorem exec_rsp (i : Instr) (s : State) (r : Option Word) : exec i { s with rsp := r } = exec i s := by
  cases i <;> rfl

theorem not_indexInRange_of_le {n : FieldCount} {idx : Index} (h : n.toNat ≤ idx.toNat) :
    ¬indexInRange n idx = true := by
  simpa [indexInRange] using h

/-- No command reads what is presented after it, and every command leaves that as it is. -/
theorem exec_present {i : Instr} {s t : State} (rest : List Input) (h : exec i s = .next t) :
    exec i (s.present rest) = .next (t.present rest) := by
  cases i with
  | nop | estart | rdstat | rdrxlen =>
    obtain rfl := complete_eq_next_iff.mp h
    rfl
  | ewf idx v =>
    rcases execEwf_cases h with ⟨hi, rfl⟩ | ⟨hi, rfl⟩
    · exact if_pos (decide_eq_true hi)
    · exact if_neg (not_indexInRange_of_le hi)
  | txpop =>
    rcases execTxpop_cases h with ⟨hq, rfl⟩ | ⟨b, q, hq, rfl⟩ <;>
      simp [exec, execTxpop, complete, State.present, hq]
  | rxb b =>
    rcases execRxb_cases h with ⟨b0, e, hc, rfl⟩ | ⟨hc, rfl⟩ <;>
      simp [exec, execRxb, complete, State.present, State.status, hc]
  | rdfld idx =>
    rcases execRdfld_cases h with ⟨hi, rfl⟩ | ⟨hi, rfl⟩
    · exact if_pos (decide_eq_true hi)
    · exact if_neg (not_indexInRange_of_le hi)

end Sys2Proof.Machine
end

section
/-! CERTIFICATE. Inputs run in the order presented (spec/20_memory.md R41). -/

namespace Sys2Proof.Machine

/-- What the first input does depends on no later one. -/
theorem step_first_input (s : State) (x : Input) :
    ∃ u : State, ∀ rest, step (s.present (x :: rest)) = .next (u.present rest) := by
  cases x with
  | reset => exact ⟨applyReset s, fun rest => step_of_port_reset (s := s.present _) rfl⟩
  | command w =>
    cases hd : decode s.n w with
    | ok i =>
      obtain ⟨t, ht⟩ := exec_completes i s
      exact ⟨t, fun rest => (step_of_decode_ok (s := s.present _) rfl hd).trans (exec_present (s := s) rest ht)⟩
    | error e =>
      exact ⟨{ s with rsp := some (response true 0x0000#16) }, fun rest => step_of_decode_error (s := s.present _) rfl hd⟩

/-- A run over presented inputs reaches a state that depends on no later input, and goes on from there. -/
theorem run_present_append (s : State) (first : List Input) :
    ∃ u : State, ∀ later k, Host.Core.run Sys2Proof.core (first.length + k) (s.present (first ++ later)) =
      Host.Core.run Sys2Proof.core k (u.present later) := by
  induction first generalizing s with
  | nil => exact ⟨s, fun later k => by rw [List.length_nil, Nat.zero_add, List.nil_append]⟩
  | cons x first ih =>
    obtain ⟨v, hv⟩ := step_first_input s x
    obtain ⟨u, hu⟩ := ih v
    refine ⟨u, fun later k => ?_⟩
    rw [List.length_cons, Nat.add_right_comm, List.cons_append, run_succ_of_step _ (hv _), hu]

/-- Settles O11: the run of `first` is the case of no later input and no further step. -/
theorem commandsRunInOrder : Obligations.CommandsRunInOrder := by
  intro s first later
  obtain ⟨u, hu⟩ := run_present_append s first
  have hfirst := hu [] 0
  rw [List.append_nil] at hfirst
  exact ⟨u.present [], hfirst, rfl, hu later later.length⟩

end Sys2Proof.Machine
end

section
/-! CERTIFICATE. Reads have no side effect and can be repeated (spec/20_memory.md R40). -/

namespace Sys2Proof.Machine

/-- A command that is neither the encoder's nor RXB writes the response only. -/
theorem CommandEffect.writes_rsp_only {s t : State} {i : Instr} (h : CommandEffect s i t)
    (henc : isEncoderCommand i = false) (hrxb : ∀ b, i ≠ .rxb b) : t = { s with rsp := t.rsp } := by
  cases h with
  | answers => rfl
  | writes | latches | pops => cases henc
  | closes b | keeps b => exact absurd rfl (hrxb b)

/-- Settles O41: a read writes the response only, which no command reads. -/
theorem readsAreRepeatable : Obligations.ReadsAreRepeatable := by
  intro s t i hexec hread
  have hsame : t = { s with rsp := t.rsp } := by
    rcases hread with rfl | rfl | ⟨idx, rfl⟩ | rfl <;>
      exact (exec_effect hexec).writes_rsp_only rfl nofun
  refine ⟨hsame, ?_⟩
  rw [hsame, exec_rsp]
  exact hexec.trans (congrArg _ hsame)

end Sys2Proof.Machine
end

section
/-! SUPPORT and CERTIFICATE. RDALL reads the last result (spec/20_memory.md R42, spec/30_encoding.md R58). -/

namespace Sys2Proof.Machine

/-! ## The words of RDALL -/

/-- Parts that all assemble, each to its word. -/
theorem gather_map_of_ok {α : Type} {part : α → Except AsmError Word} {word : α → Word} {xs : List α}
    (h : ∀ x ∈ xs, part x = .ok (word x)) : gather (xs.map part) = .ok (xs.map word) := by
  induction xs with
  | nil => rfl
  | cons x xs ih =>
    obtain ⟨hx, hxs⟩ := List.forall_mem_cons.mp h
    simp only [List.map_cons, hx, gather, ih hxs, Except.map]

theorem operand_of_lt {w v : Nat} (h : v < 2 ^ w) : operand w v = .ok (BitVec.ofNat w v) := if_pos h

theorem asmRdfld_of_lt {idx : Nat} (h : idx < 4) : asmRdfld idx = .ok (encode (.rdfld (BitVec.ofNat 2 idx))) := by
  rw [asmRdfld, operand_of_lt h]
  rfl

/-- The commands RDALL stands for (R58). -/
def rdallCommands (n : FieldCount) : List Instr :=
  .rdstat :: (List.range n.toNat).map fun i => .rdfld (BitVec.ofNat 2 i)

theorem assembleLine_rdall (n : FieldCount) : assembleLine n .rdall = .ok ((rdallCommands n).map encode) := by
  have hfields : gather ((List.range n.toNat).map asmRdfld) =
      .ok ((List.range n.toNat).map fun i => encode (.rdfld (BitVec.ofNat 2 i))) :=
    gather_map_of_ok fun i hi => asmRdfld_of_lt ((List.mem_range.mp hi).trans_le n.toNat_le_four)
  simp [assembleLine, gather, hfields, rdallCommands, Except.map, Function.comp_def]

theorem wordInputs_map_encode (is : List Instr) : wordInputs (is.map encode) = commandInputs is :=
  List.map_map

/-! ## What reads answer -/

theorem response_false (data : Half) : response false data = data.setWidth 32 := by
  have hzero : BitVec.ofBool false ++ 0#15 = 0#16 := by decide
  rw [response, hzero, BitVec.setWidth_eq_append (by decide)]
  rfl

theorem response_rdstatData (status : BitVec 2) : response false (rdstatData status) = status.setWidth 32 := by
  rw [response_false, rdstatData, BitVec.setWidth_setWidth (by decide)]

/-- RDSTAT (R80). -/
theorem exec_rdstat (s : State) : exec .rdstat s = .next { s with rsp := some (s.status.setWidth 32) } := by
  rw [← response_rdstatData]
  rfl

/-- RDFLD of a register (R81). -/
theorem exec_rdfld_of_lt {s : State} {idx : Index} (hi : idx.toNat < s.n.toNat) (hlf : idx.toNat < s.lf.length) :
    exec (.rdfld idx) s = .next { s with rsp := some (s.lf[idx.toNat].setWidth 32) } := by
  rw [← readReg_of_lt hlf, ← response_false]
  exact if_pos (decide_eq_true hi)

/-- Commands that write nothing, each answering `s` with its word, give those words when run one after the other from
`s`. -/
theorem responses_of_reads {s : State} {is : List Instr} {rs : List Word}
    (h : List.Forall₂ (fun i r => exec i s = .next { s with rsp := some r }) is rs) :
    responses is.length (s.present (commandInputs is)) = rs := by
  induction is generalizing s rs with
  | nil =>
    cases h
    rfl
  | cons i is ih =>
    obtain ⟨r, rs, hexec, his, rfl⟩ := List.forall₂_cons_left_iff.mp h
    have hstep : step (s.present (commandInputs (i :: is))) =
        .next (({ s with rsp := some r } : State).present (commandInputs is)) :=
      (step_present_encode s i _).trans (exec_present _ hexec)
    have hrest := ih (s := { s with rsp := some r }) (his.imp fun j _ hj => (exec_rsp j s (some r)).trans hj)
    simp only [List.length_cons, responses, hstep, hrest]
    rfl

/-- What the commands of RDALL answer to a state whose LF has N registers. -/
theorem rdallCommands_answers {s : State} (hlf : s.lf.length = s.n.toNat) :
    List.Forall₂ (fun i r => exec i s = .next { s with rsp := some r }) (rdallCommands s.n)
      (s.status.setWidth 32 :: s.lf.map fun f => f.setWidth 32) := by
  refine .cons (exec_rdstat s) ?_
  rw [List.forall₂_map_left_iff, List.forall₂_map_right_iff, List.forall₂_iff_get]
  refine ⟨by rw [List.length_range, hlf], fun i hi hlt => ?_⟩
  have hidx : (BitVec.ofNat 2 i).toNat = i :=
    Nat.mod_eq_of_lt ((hlf ▸ hlt).trans_le s.n.toNat_le_four)
  have hexec := exec_rdfld_of_lt (s := s) (idx := BitVec.ofNat 2 i) (by omega) (by omega)
  simpa only [hidx, List.get_eq_getElem, List.getElem_range] using hexec

/-- Settles O52: RDALL's words are those of RDSTAT and the N RDFLDs, none of which writes anything. -/
theorem rdallReadsLastResult : Obligations.RdallReadsLastResult := by
  intro s ws hs hws
  obtain rfl := Except.ok.inj ((assembleLine_rdall s.n).symm.trans hws)
  rw [wordInputs_map_encode, List.length_map]
  exact responses_of_reads (rdallCommands_answers hs.lfSize)

end Sys2Proof.Machine
end

section
/-! SUPPORT and CERTIFICATE. The decoder and the encoder are inverse to each other (spec/30_encoding.md R51 to R53). -/

namespace Sys2Proof

/-! ## The fields of a command's word -/

/-- A word is a command's encoding exactly when it has that encoding's four fields. -/
theorem encode_eq_iff {i : Instr} {w : Word} :
    encode i = w ↔
      opField w = i.opcode ∧ idxField w = i.indexBits ∧ rsvField w = 0 ∧ dataField w = i.dataBits := by
  obtain ⟨hop, hidx, hrsv, hdata⟩ := Laws.EncodeLayout.of_instr i
  constructor
  · rintro rfl
    exact ⟨hop, hidx, hrsv, hdata⟩
  · rintro ⟨hop', hidx', hrsv', hdata'⟩
    exact word_ext (hop.trans hop'.symm) (hidx.trans hidx'.symm) (hrsv.trans hrsv'.symm) (hdata.trans hdata'.symm)

theorem idxField_encode (i : Instr) : idxField (encode i) = i.indexBits := idxField_packFields _ _ _ _

theorem setWidth_byte (b : Byte) : b.setWidth 16 = 0#8 ++ b :=
  BitVec.setWidth_eq_append (by decide)

/-- DATA that frees its low byte only, as RXB's does (R53). -/
theorem eq_setWidth_lowByte_of_highByte_eq_zero {d : Half} (h : d.extractLsb' 8 8 = 0) :
    d = (d.extractLsb' 0 8).setWidth 16 := by
  have hsplit : d.extractLsb' 8 8 ++ d.extractLsb' 0 8 = d := Machine.fieldAt_bigEndian_append d []
  rw [setWidth_byte]
  rw [h] at hsplit
  exact hsplit.symm

/-! ## Decoding and then encoding -/

section
variable {w : Word} {i j : Instr} {unusedZero : Bool}

theorem whenUnusedZero_eq_ok_iff : whenUnusedZero unusedZero i = .ok j ↔ unusedZero = true ∧ i = j := by
  cases unusedZero <;> simp [whenUnusedZero]

/-- A command without operands comes from its own word only. -/
theorem encode_of_whenUnusedZero (h : whenUnusedZero (idxField w == 0 && dataField w == 0) i = .ok j)
    (hop : (opField w).toNat = i.opcode.toNat) (hrsv : rsvField w = 0)
    (hfree : i.indexBits = 0 ∧ i.dataBits = 0) : encode j = w := by
  obtain ⟨hzero, rfl⟩ := whenUnusedZero_eq_ok_iff.mp h
  simp only [Bool.and_eq_true, beq_iff_eq] at hzero
  obtain ⟨hidx, hdata⟩ := hzero
  exact encode_eq_iff.mpr
    ⟨BitVec.eq_of_toNat_eq hop, hidx.trans hfree.1.symm, hrsv, hdata.trans hfree.2.symm⟩

theorem encode_of_decodeWord_eq_ok (h : decodeWord w = .ok i) : encode i = w := by
  unfold decodeWord at h
  split at h
  case isTrue => cases h
  case isFalse hrsv =>
    rw [not_not] at hrsv
    split at h
    case h_1 hop | h_3 hop | h_4 hop | h_6 hop | h_8 hop => exact encode_of_whenUnusedZero h hop hrsv ⟨rfl, rfl⟩
    case h_2 hop =>
      obtain rfl := Except.ok.inj h
      exact encode_eq_iff.mpr ⟨BitVec.eq_of_toNat_eq hop, rfl, hrsv, rfl⟩
    case h_5 hop =>
      obtain ⟨hzero, rfl⟩ := whenUnusedZero_eq_ok_iff.mp h
      simp only [Bool.and_eq_true, beq_iff_eq, dataHighField_eq] at hzero
      rw [byteField_eq]
      exact encode_eq_iff.mpr
        ⟨BitVec.eq_of_toNat_eq hop, hzero.1, hrsv, eq_setWidth_lowByte_of_highByte_eq_zero hzero.2⟩
    case h_7 hop =>
      obtain ⟨hdata, rfl⟩ := whenUnusedZero_eq_ok_iff.mp h
      exact encode_eq_iff.mpr ⟨BitVec.eq_of_toNat_eq hop, rfl, hrsv, beq_iff_eq.mp hdata⟩
    case h_9 => cases h

theorem decodeWord_eq_ok_iff : decodeWord w = .ok i ↔ encode i = w :=
  ⟨encode_of_decodeWord_eq_ok, fun h => h ▸ decodeWord_encode i⟩

end

/-- Settles O1: a word spells a command exactly when it is the command's encoding, and the decoder's value check is
well-formedness. -/
theorem decodeEncodeAgree : Obligations.DecodeEncodeAgree := by
  intro n w i
  rw [decode_eq_ok_iff, decodeWord_eq_ok_iff, and_comm]

end Sys2Proof
end

section
/-! SUPPORT and CERTIFICATE. The decoder and the opcode map's masks and patterns (spec/30_encoding.md R52). -/

namespace Sys2Proof

/-- A mask and a pattern compare field by field. -/
theorem and_eq_iff {w mask pattern : Word} :
    w &&& mask = pattern ↔
      opField w &&& opField mask = opField pattern ∧ idxField w &&& idxField mask = idxField pattern ∧
      rsvField w &&& rsvField mask = rsvField pattern ∧ dataField w &&& dataField mask = dataField pattern := by
  simp only [opField, idxField, rsvField, dataField, ← BitVec.extractLsb'_and]
  constructor
  · rintro rfl
    exact ⟨rfl, rfl, rfl, rfl⟩
  · rintro ⟨hop, hidx, hrsv, hdata⟩
    exact word_ext hop hidx hrsv hdata

theorem exists_instr_iff {P : Instr → Prop} :
    (∃ i, P i) ↔ P .nop ∨ (∃ idx v, P (.ewf idx v)) ∨ P .estart ∨ P .txpop ∨ (∃ b, P (.rxb b)) ∨ P .rdstat ∨
      (∃ idx, P (.rdfld idx)) ∨ P .rdrxlen := by
  constructor
  · rintro ⟨i, hi⟩
    cases i with
    | nop | estart | txpop | rdstat | rdrxlen => simp only [hi, true_or, or_true]
    | ewf idx v => exact .inr (.inl ⟨idx, v, hi⟩)
    | rxb b => exact .inr (.inr (.inr (.inr (.inl ⟨b, hi⟩))))
    | rdfld idx => exact .inr (.inr (.inr (.inr (.inr (.inr (.inl ⟨idx, hi⟩))))))
  · rintro (h | ⟨idx, v, h⟩ | h | h | ⟨b, h⟩ | h | ⟨idx, h⟩ | h) <;> exact ⟨_, h⟩

/-- RXB's mask on DATA frees the low byte. -/
theorem and_highByteMask_eq_zero_iff {d : Half} : d &&& 0xFF00#16 = 0#16 ↔ ∃ b : Byte, d = b.setWidth 16 := by
  constructor
  · intro h
    have hhigh : d.extractLsb' 8 8 &&& BitVec.allOnes 8 = 0#8 := by
      simpa [BitVec.extractLsb'_and] using congrArg (BitVec.extractLsb' 8 8) h
    exact ⟨_, eq_setWidth_lowByte_of_highByte_eq_zero (BitVec.and_allOnes.symm.trans hhigh)⟩
  · rintro ⟨b, rfl⟩
    have hmask : (0#8 ++ b) &&& (BitVec.allOnes 8 ++ 0#8) = (0#8 &&& BitVec.allOnes 8) ++ (b &&& 0#8) :=
      BitVec.and_append
    rw [BitVec.and_zero] at hmask
    rw [setWidth_byte]
    exact hmask

/-- A word matches a row's mask and pattern exactly when it is the encoding of a command of that row. -/
theorem matches_row_iff {r : OpcodeRow} {w : Word} (hr : r ∈ opcodeRows) :
    w &&& r.mask = r.pattern ↔ ∃ i : Instr, i.mnemonic = r.mnemonic ∧ encode i = w := by
  rw [and_eq_iff, exists_instr_iff]
  simp only [encode_eq_iff, Instr.mnemonic]
  generalize opField w = op, idxField w = idx, rsvField w = rsv, dataField w = data
  have hop : op &&& 0xF#4 = op := BitVec.and_allOnes
  have hidx : idx &&& 0x3#2 = idx := BitVec.and_allOnes
  have hrsv : rsv &&& 0x3FF#10 = rsv := BitVec.and_allOnes
  have hdata : data &&& 0xFFFF#16 = data := BitVec.and_allOnes
  simp only [opcodeRows, List.mem_cons, List.not_mem_nil, or_false] at hr
  rcases hr with rfl | rfl | rfl | rfl | rfl | rfl | rfl | rfl <;>
    simp [opField, idxField, rsvField, dataField, Instr.opcode, Instr.indexBits, Instr.dataBits, hop, hidx, hrsv,
      hdata, and_highByteMask_eq_zero_iff]

/-- The value check of a command's row is the command's own. -/
theorem wellFormed_iff_row_check (i : Instr) (n : FieldCount) : ∀ r ∈ opcodeRows, i.mnemonic = r.mnemonic →
    (i.wellFormed n = true ↔ r.checksIndex = false ∨ i.indexBits.toNat < n.toNat) := by
  cases i <;> simp [opcodeRows, Instr.mnemonic, Instr.wellFormed, Instr.indexBits]

theorem exists_row_of_mnemonic (i : Instr) : ∃ r ∈ opcodeRows, i.mnemonic = r.mnemonic := by
  cases i <;> simp [opcodeRows, Instr.mnemonic]

/-- A row admits the encodings of its well-formed commands. -/
theorem admits_iff {r : OpcodeRow} (hr : r ∈ opcodeRows) (n : FieldCount) (w : Word) :
    r.admits n w = true ↔ ∃ i, decode n w = .ok i ∧ i.mnemonic = r.mnemonic := by
  simp only [OpcodeRow.admits, Bool.and_eq_true, beq_iff_eq, Bool.or_eq_true, Bool.not_eq_true', decide_eq_true_iff,
    matches_row_iff hr, decode_eq_ok_iff, decodeWord_eq_ok_iff]
  constructor
  · rintro ⟨⟨i, hi, rfl⟩, hcheck⟩
    rw [idxField_encode, ← wellFormed_iff_row_check i n r hr hi] at hcheck
    exact ⟨i, ⟨rfl, hcheck⟩, hi⟩
  · rintro ⟨i, ⟨rfl, hcheck⟩, hi⟩
    rw [idxField_encode, ← wellFormed_iff_row_check i n r hr hi]
    exact ⟨⟨i, hi, rfl⟩, hcheck⟩

/-- Settles O2: each row admits its own commands' words, and every command has a row. -/
theorem decodeMatchesOpcodeTable : Obligations.DecodeMatchesOpcodeTable := by
  refine fun n w => ⟨⟨?_, ?_⟩, fun r hr => admits_iff hr n w⟩
  · rintro ⟨i, hi⟩
    obtain ⟨r, hr, hrow⟩ := exists_row_of_mnemonic i
    exact ⟨r, hr, (admits_iff hr n w).mpr ⟨i, hi, hrow⟩⟩
  · rintro ⟨r, hr, hadmits⟩
    obtain ⟨i, hi, -⟩ := (admits_iff hr n w).mp hadmits
    exact ⟨i, hi⟩

end Sys2Proof
end

section
/-! SUPPORT and CERTIFICATE. The illegal words (spec/30_encoding.md R54) and what they do (spec/43_control.md R89). -/

namespace Sys2Proof.Machine

/-- Of R54's causes an encoding can have (d) only. -/
theorem illegalByRule_encode_iff {n : FieldCount} {i : Instr} :
    IllegalByRule n (encode i) ↔ i.wellFormed n = false := by
  obtain ⟨hop, hidx, hrsv, hdata⟩ := Laws.EncodeLayout.of_instr i
  rw [IllegalByRule, dataHighField_eq, hop, hidx, hrsv, hdata]
  cases i with
  | ewf | rdfld => simp [Instr.opcode, Instr.indexBits, Instr.dataBits, Instr.wellFormed]
  | rxb byte =>
    have hhigh : (0#8 ++ byte).extractLsb' 8 8 = 0#8 := BitVec.extractLsb'_append_eq_left
    simp [Instr.opcode, Instr.indexBits, Instr.dataBits, Instr.wellFormed, setWidth_byte, hhigh]
  | nop | estart | txpop | rdstat | rdrxlen =>
    simp [Instr.opcode, Instr.indexBits, Instr.dataBits, Instr.wellFormed]

theorem whenUnusedZero_eq_error {unusedZero : Bool} {i : Instr} {e : Illegal}
    (h : whenUnusedZero unusedZero i = .error e) : unusedZero = false := by
  cases unusedZero
  · rfl
  · cases h

/-- A word that spells no command has one of the causes (a), (b) and (c). -/
theorem illegalByRule_of_decodeWord_eq_error {w : Word} {e : Illegal} (n : FieldCount)
    (h : decodeWord w = .error e) : IllegalByRule n w := by
  unfold decodeWord at h
  split at h
  case isTrue hrsv => exact .inr (.inl hrsv)
  case isFalse hrsv =>
    have hrsv : rsvField w = 0#10 := not_not.mp hrsv
    split at h
    case h_1 hop | h_3 hop | h_4 hop | h_5 hop | h_6 hop | h_8 hop =>
      simpa [IllegalByRule, hop, hrsv, imp_iff_not_or] using whenUnusedZero_eq_error h
    case h_2 => cases h
    case h_7 hop =>
      have hdata : dataField w ≠ 0#16 := by simpa using whenUnusedZero_eq_error h
      simp [IllegalByRule, hop, hdata]
    case h_9 =>
      simp only [imp_false] at *
      exact .inl (by omega)

theorem exists_decode_eq_error_iff {n : FieldCount} {w : Word} :
    (∃ e, decode n w = .error e) ↔ IllegalByRule n w := by
  cases hd : decodeWord w with
  | error e => simp [decode, hd, illegalByRule_of_decodeWord_eq_error n hd]
  | ok i =>
    obtain rfl := decodeWord_eq_ok_iff.mp hd
    rw [illegalByRule_encode_iff, decode_encode]
    cases i.wellFormed n <;> simp

/-- Settles O3: the causes are those the decoder refuses for, and a refused word is answered with ERR_CMD, which
writes the response only. -/
theorem illegalWordAnswersErrorOnly : Obligations.IllegalWordAnswersErrorOnly := by
  refine ⟨fun n w => exists_decode_eq_error_iff, fun s w rest hport hillegal => ?_⟩
  obtain ⟨e, he⟩ := exists_decode_eq_error_iff.mpr hillegal
  exact step_of_decode_error hport he

end Sys2Proof.Machine
end

section
/-! SUPPORT and CERTIFICATE. One response in R55's format for every command word (spec/30_encoding.md R55). -/

namespace Sys2Proof.Machine

/-! ## The fields of a response -/

theorem response_err (err : Bool) (data : Half) : (response err data).getLsbD 31 = err := by
  rw [response, BitVec.getLsbD_append, if_neg (by decide), BitVec.getLsbD_append, if_neg (by decide)]
  simp

theorem response_zeros (err : Bool) (data : Half) : (response err data).extractLsb' 16 15 = 0 := by
  refine BitVec.eq_of_getLsbD_eq fun j hj => ?_
  rw [response, BitVec.getLsbD_extractLsb', BitVec.getLsbD_append, if_neg (by omega), BitVec.getLsbD_append,
    if_pos (by omega)]
  simp

theorem response_data (err : Bool) (data : Half) : (response err data).extractLsb' 0 16 = data :=
  BitVec.extractLsb'_append_eq_right

/-- A well-formed command answers with ERR = 0. -/
theorem exec_answers_of_wellFormed {i : Instr} {s t : State} (hi : i.wellFormed s.n = true)
    (h : exec i s = .next t) : ∃ data, t.rsp = some (response false data) := by
  cases i with
  | nop | estart | rdstat | rdrxlen =>
    obtain rfl := complete_eq_next_iff.mp h
    exact ⟨_, rfl⟩
  | ewf idx v =>
    rcases execEwf_cases h with ⟨-, rfl⟩ | ⟨hle, -⟩
    · exact ⟨_, rfl⟩
    · exact absurd (of_decide_eq_true hi) (Nat.not_lt.mpr hle)
  | txpop =>
    rcases execTxpop_cases h with ⟨-, rfl⟩ | ⟨b, rest, -, rfl⟩
    · exact ⟨_, rfl⟩
    · exact ⟨_, rfl⟩
  | rxb b =>
    rcases execRxb_cases h with ⟨b0, e, -, rfl⟩ | ⟨-, rfl⟩
    · exact ⟨_, rfl⟩
    · exact ⟨_, rfl⟩
  | rdfld idx =>
    rcases execRdfld_cases h with ⟨-, rfl⟩ | ⟨hle, -⟩
    · exact ⟨_, rfl⟩
    · exact absurd (of_decide_eq_true hi) (Nat.not_lt.mpr hle)

/-- Settles O7: a legal word's command completes and answers with ERR = 0, an illegal word answers ERR_CMD. -/
theorem everyCommandGetsOneResponse : Obligations.EveryCommandGetsOneResponse := by
  intro s w rest hport
  cases hd : decode s.n w with
  | error e =>
    refine ⟨_, _, step_of_decode_error hport hd, rfl, rfl, rfl, response_zeros _ _, ?_, fun _ => response_data _ _⟩
    rw [response_err]
    exact iff_of_true rfl ⟨e, rfl⟩
  | ok i =>
    obtain ⟨t, hexec⟩ := exec_completes i { s with port := rest }
    have heff := exec_effect hexec
    obtain ⟨data, hrsp⟩ := exec_answers_of_wellFormed (s := { s with port := rest }) (decode_eq_ok_iff.mp hd).2 hexec
    refine ⟨t, _, (step_of_decode_ok hport hd).trans hexec, hrsp, heff.port, heff.n, response_zeros _ _, ?_, ?_⟩
    · rw [response_err]
      exact iff_of_false nofun nofun
    · rw [response_err]
      exact nofun

end Sys2Proof.Machine
end

section
/-! SUPPORT and CERTIFICATE. The frame's layout and length (spec/30_encoding.md R48, R49). -/

namespace Sys2Proof.Machine

/-! ## The clean frame -/

/-- Field i's two bytes in the payload. -/
theorem payload_getElem? {F : List Half} {i : Nat} {f : Half} (h : F[i]? = some f) :
    (payload F)[2 * i]? = some (f.extractLsb' 8 8) ∧ (payload F)[2 * i + 1]? = some (f.extractLsb' 0 8) := by
  have hdrop : ∀ k, (payload F)[2 * i + k]? = (bigEndian f ++ payload (F.drop (i + 1)))[k]? := fun k => by
    rw [← payload_drop h, List.getElem?_drop]
  exact ⟨hdrop 0, hdrop 1⟩

/-- The clean frame: STX, the payload from index 1 on, the checksum and ETX. -/
theorem cleanFrame_eq (F : List Half) :
    [0x02#8] ++ interiorBytes F ++ [0x03#8] = 0x02#8 :: (payload F ++ [checksum F, 0x03#8]) := by
  simp [interiorBytes]

/-! ## The wire frame -/

/-- The wire bytes before interior byte j, its own, and those after it. -/
theorem frame_split {F : List Half} {j : Nat} {b : Byte} (h : (interiorBytes F)[j]? = some b) :
    frame F = (stx :: stuff ((interiorBytes F).take j)) ++
      (esc1 b ++ (stuff ((interiorBytes F).drop (j + 1)) ++ [etx])) := by
  obtain ⟨hj, hb⟩ := List.getElem?_eq_some_iff.mp h
  have hsplit : interiorBytes F = (interiorBytes F).take j ++ b :: (interiorBytes F).drop (j + 1) := by
    rw [← hb, List.getElem_cons_drop, List.take_append_drop]
  rw [frame]
  conv_lhs => rw [hsplit]
  simp [stuff_cons]

/-- The wire position of interior byte j, by the interior wire bytes before it. -/
theorem frame_wirePosition {F : List Half} {j : Nat} {b : Byte} (h : (interiorBytes F)[j]? = some b) :
    ((frame F).drop (1 + (stuff ((interiorBytes F).take j)).length)).take (esc1 b).length = esc1 b := by
  rw [frame_split h, List.drop_left' (by simp [Nat.add_comm])]
  exact List.take_left

theorem frame_getLast? (F : List Half) : (frame F).getLast? = some 0x03#8 := by
  rw [frame, ← List.cons_append, List.getLast?_concat]
  rfl

/-- Settles O18: the clean frame by its parts, and the wire frame cut at the byte asked for. -/
theorem frameLayout : Obligations.FrameLayout := by
  intro n F hF clean
  have hclean : clean = 0x02#8 :: (payload F ++ [checksum F, 0x03#8]) := cleanFrame_eq F
  have hlen : (payload F).length = 2 * n.toNat := by rw [payload_length, hF]
  refine ⟨rfl, fun i f hi => ?_, ?_, ?_, ?_, rfl, frame_getLast? F, fun j b hj => ⟨frame_wirePosition hj, ?_⟩⟩
  · have hlt : i < F.length := (List.getElem?_eq_some_iff.mp hi).1
    obtain ⟨hhigh, hlow⟩ := payload_getElem? hi
    rw [hclean, Nat.add_comm 1, show 2 + 2 * i = 2 * i + 1 + 1 by omega, List.getElem?_cons_succ,
      List.getElem?_cons_succ, List.getElem?_append_left (by omega), List.getElem?_append_left (by omega)]
    exact ⟨hhigh, hlow⟩
  · rw [hclean, List.getElem?_cons_succ, ← hlen, List.getElem?_append_right le_rfl, Nat.sub_self]
    rfl
  · rw [hclean, List.getElem?_cons_succ, ← hlen, List.getElem?_append_right (by omega), Nat.add_sub_cancel_left]
    rfl
  · simp [hclean, hlen]
  · have hlt : j < (interiorBytes F).length := (List.getElem?_eq_some_iff.mp hj).1
    rw [stuff_length, List.length_take_of_le hlt.le]

/-- Settles O19: the count of control bytes is at most 2N; the fields 0x0004, 0, … have none among their interior
bytes, and the fields 0x0202 have 2N. -/
theorem frameLengthRange : Obligations.FrameLengthRange := by
  refine fun n => ⟨fun F hF => ?_, ⟨0x0004#16 :: List.replicate (n.toNat - 1) 0x0000#16, ?_⟩, ?_⟩
  · have hlen := frame_length F
    rw [hF] at hlen
    exact ⟨hlen, by omega, frame_length_le_maxFrame hF⟩
  · cases n <;> decide
  · cases n <;> decide

end Sys2Proof.Machine
end

section
/-! SUPPORT and CERTIFICATE. The assembler's lines (spec/30_encoding.md R57, R58). -/

namespace Sys2Proof.Machine

/-! ## Operands -/

theorem operand_of_le {w v : Nat} (h : 2 ^ w ≤ v) : operand w v = .error .outOfRange := if_neg (Nat.not_lt.mpr h)

/-- An operand that is a bit vector of its width is in range. -/
theorem operand_toNat {w : Nat} (x : BitVec w) : operand w x.toNat = .ok x := by
  rw [operand_of_lt x.isLt, BitVec.ofNat_toNat, BitVec.setWidth_eq]

/-- An operand in range makes a command's word, and one out of range the line's error. -/
theorem gather_operand {w v : Nat} (word : BitVec w → Word) :
    gather [(operand w v).map word] =
      if v < 2 ^ w then .ok [word (BitVec.ofNat w v)] else .error .outOfRange := by
  unfold operand
  split <;> rfl

theorem assembleLine_ewf (n : FieldCount) (idx value : Nat) :
    assembleLine n (.ewf idx value) =
      if idx ≤ 3 ∧ value ≤ 65535 then .ok [encode (.ewf (BitVec.ofNat 2 idx) (BitVec.ofNat 16 value))]
      else .error .outOfRange := by
  rw [assembleLine, asmEwf]
  by_cases hidx : idx < 4
  · rw [operand_of_lt hidx]
    by_cases hvalue : value < 65536
    · rw [operand_of_lt hvalue, if_pos (by omega)]
      rfl
    · rw [operand_of_le (Nat.not_lt.mp hvalue), if_neg (by omega)]
      rfl
  · rw [operand_of_le (Nat.not_lt.mp hidx), if_neg (by omega)]
    rfl

theorem assembleLine_rxb (n : FieldCount) (byte : Nat) :
    assembleLine n (.rxb byte) =
      if byte ≤ 255 then .ok [encode (.rxb (BitVec.ofNat 8 byte))] else .error .outOfRange := by
  rw [assembleLine, asmRxb, gather_operand]
  exact if_congr Nat.lt_succ_iff rfl rfl

theorem assembleLine_rdfld (n : FieldCount) (idx : Nat) :
    assembleLine n (.rdfld idx) =
      if idx ≤ 3 then .ok [encode (.rdfld (BitVec.ofNat 2 idx))] else .error .outOfRange := by
  rw [assembleLine, asmRdfld, gather_operand]
  exact if_congr Nat.lt_succ_iff rfl rfl

theorem assembleLine_rawWord (n : FieldCount) (w : Nat) :
    assembleLine n (.rawWord w) = if w < 2 ^ 32 then .ok [BitVec.ofNat 32 w] else .error .outOfRange := by
  have hid : operand 32 w = (operand 32 w).map id := by cases operand 32 w <;> rfl
  rw [assembleLine, hid]
  exact gather_operand id

/-- RXB's byte in DATA, from the number written (R53). -/
theorem encode_rxb_ofNat {byte : Nat} (h : byte ≤ 255) :
    encode (.rxb (BitVec.ofNat 8 byte)) = packFields 0x4#4 0 0 (BitVec.ofNat 16 byte) := by
  have hdata : (BitVec.ofNat 8 byte).setWidth 16 = BitVec.ofNat 16 byte :=
    BitVec.eq_of_toNat_eq (by simp; omega)
  exact congrArg (packFields 0x4#4 0 0) hdata

/-- Settles O50: each operand is in range or the line is an error; the two texts parse to their lines. -/
theorem assemblerChecksOperands : Obligations.AssemblerChecksOperands := by
  refine ⟨assembleLine_ewf, fun n byte => ?_, assembleLine_rdfld, assembleLine_rawWord, fun n => ⟨?_, ?_⟩⟩
  · rw [assembleLine_rxb]
    split
    · rename_i h
      rw [encode_rxb_ofNat h]
    · rfl
  · have hparse : parseLine "EWF 1, 300".toList = .ok (.ewf 1 300) := by decide
    rw [assembleText, hparse]
    exact (assembleLine_ewf n 1 300).trans (by decide)
  · have hparse : parseLine "RXB 0x5C".toList = .ok (.rxb 0x5C) := by decide
    rw [assembleText, hparse]
    exact (assembleLine_rxb n 0x5C).trans (by decide)

/-! ## The pseudo-instructions -/

/-- The EWFs of ENCODE from index k on. -/
theorem zipIdx_map_asmEwf {F : List Half} {k : Nat} (h : k + F.length ≤ 4) :
    ((F.map BitVec.toNat).zipIdx k).map (fun p => asmEwf p.2 p.1) =
      (ewfCommands k F).map fun i => .ok (encode i) := by
  induction F generalizing k with
  | nil => rfl
  | cons f F ih =>
    rw [List.length_cons] at h
    have hk : k < 2 ^ 2 := by omega
    have hfirst : asmEwf k f.toNat = .ok (encode (.ewf (BitVec.ofNat 2 k) f)) := by
      rw [asmEwf, operand_of_lt hk, operand_toNat]
    simp only [List.map_cons, List.zipIdx_cons, ewfCommands, hfirst, ih (by omega : k + 1 + F.length ≤ 4)]

theorem assembleLine_encodeAll {n : FieldCount} {F : List Half} (hF : F.length = n.toNat) :
    assembleLine n (.encodeAll (F.map BitVec.toNat)) =
      .ok ((ewfCommands 0 F ++ [Instr.estart]).map encode) := by
  have hfour := n.toNat_le_four
  have hparts := zipIdx_map_asmEwf (F := F) (k := 0) (by omega)
  have hgather := gather_map_of_ok (part := fun i => .ok (encode i)) (word := encode)
    (xs := ewfCommands 0 F ++ [Instr.estart]) fun _ _ => rfl
  rw [List.map_append, ← hparts] at hgather
  rw [assembleLine, if_pos (by rw [List.length_map, hF])]
  exact hgather

theorem assembleLine_rxseq (n : FieldCount) {bs : List Byte} (hbs : bs ≠ []) :
    assembleLine n (.rxseq (bs.map BitVec.toNat)) = .ok (bs.map fun b => encode (.rxb b)) := by
  have hbytes : ∀ b ∈ bs, asmRxb b.toNat = .ok (encode (.rxb b)) := fun b _ => by
    rw [asmRxb, operand_toNat]
    rfl
  have hne : ¬(bs.map BitVec.toNat).isEmpty = true := by simpa using hbs
  rw [assembleLine, if_neg hne, List.map_map]
  exact gather_map_of_ok hbytes

/-- Settles O51: each expansion's parts assemble one by one, their operands being in range. -/
theorem pseudoInstructionsExpand : Obligations.PseudoInstructionsExpand := by
  refine ⟨fun n F hF => ?_, fun n bs => assembleLine_rxseq n, fun n k => rfl, fun n => ?_⟩
  · rw [assembleLine_encodeAll hF, List.map_append]
    rfl
  · rw [assembleLine_rdall, rdallCommands, List.map_cons, List.map_map]
    rfl

end Sys2Proof.Machine
end

section
/-! CERTIFICATE. Words written out from the encoding (spec/30_encoding.md R51 to R54). -/

namespace Sys2Proof

/-- Settles O4: the decoder is run on each word. -/
theorem sampleWordsDecode : Obligations.SampleWordsDecode := by
  unfold Obligations.SampleWordsDecode
  decide

end Sys2Proof
end

section
/-! SUPPORT and CERTIFICATE. The checksum generator (spec/40_codec_functions.md R59, R60). -/

namespace Sys2Proof.Machine

theorem sum8_append (S T : List Byte) : sum8 (S ++ T) = sum8 S + sum8 T := by
  simp [sum8, BitVec.ofNat_add]

theorem sum8_eq_of_perm {S T : List Byte} (h : S.Perm T) : sum8 S = sum8 T := by
  rw [sum8, sum8, (h.map BitVec.toNat).sum_eq]

/-- Settles O21: by concatenation, every law is an equation between sums of bytes. -/
theorem checksumLaws : Obligations.ChecksumLaws := by
  refine ⟨fun _ _ => sum8_eq_of_perm, sum8_append, fun A C x y => ?_, fun A C D x y d => ?_⟩
  · rw [sum8_append, sum8_append, sum8_cons, sum8_cons, BitVec.add_right_inj, BitVec.add_left_inj]
  · simp only [sum8_append, sum8_cons]
    ring

/-- Settles O20: the sum is reduced where it becomes a byte; the seed of a frame's checksum is STX. -/
theorem checksumIsByteSum : Obligations.ChecksumIsByteSum :=
  ⟨fun _ => BitVec.toNat_ofNat _ _, sum8_nil, by decide, fun _ => rfl⟩

end Sys2Proof.Machine
end

section
/-! SUPPORT and CERTIFICATE. Byte-stuffing and its inverse (spec/40_codec_functions.md R61 to R64). -/

namespace Sys2Proof.Machine

theorem isCtrl_iff {b : Byte} : isCtrl b = true ↔ b = stx ∨ b = etx ∨ b = esc := by
  simp [isCtrl, or_assoc]

theorem ne_esc_of_data {b : Byte} (h : isCtrl b = false) : b ≠ esc := by
  rintro rfl
  cases h

/-- Settles O22: Esc1 tests for the three control bytes, and `stuff_length` counts them. -/
theorem stuffEscapesControlBytes : Obligations.StuffEscapesControlBytes := by
  refine ⟨stuff_nil, fun b S => ?_, stuff_length⟩
  rw [stuff_cons]
  congr 1
  exact if_congr isCtrl_iff rfl rfl

theorem unstuff_esc_cons (c : Byte) (R : List Byte) : unstuff (esc :: c :: R) = c :: unstuff R := by
  rw [unstuff, if_pos rfl]

theorem unstuff_cons_of_ne_esc {b : Byte} (R : List Byte) (h : b ≠ esc) : unstuff (b :: R) = b :: unstuff R := by
  cases R with
  | nil => rfl
  | cons c R => rw [unstuff, if_neg h]

/-- Settles O23: the branches of the walk. -/
theorem unstuffWalk : Obligations.UnstuffWalk :=
  ⟨rfl, rfl, unstuff_esc_cons, fun _ R => unstuff_cons_of_ne_esc R⟩

/-- One step of the walk takes what stands for one byte on the wire. -/
theorem unstuff_esc1_append (b : Byte) (R : List Byte) : unstuff (esc1 b ++ R) = b :: unstuff R := by
  cases h : isCtrl b with
  | true =>
    rw [esc1_of_ctrl h]
    exact unstuff_esc_cons b R
  | false =>
    rw [esc1_of_data h]
    exact unstuff_cons_of_ne_esc R (ne_esc_of_data h)

/-- Settles O24, by induction on the stuffed bytes. -/
theorem unstuffUndoesStuff : Obligations.UnstuffUndoesStuff := by
  intro S
  induction S with
  | nil => rfl
  | cons b S ih => rw [stuff_cons, unstuff_esc1_append, ih]

end Sys2Proof.Machine
end

section
/-! SUPPORT and CERTIFICATE. The frame-boundary synchronizer (spec/40_codec_functions.md R65 to R68). -/

namespace Sys2Proof.Machine

/-- The bytes that Run counts are ESC. -/
theorem getElem?_of_in_escRun {B : List Byte} {i j : Nat} (hi : i ≤ B.length) (hlo : i - escRun B i ≤ j)
    (hj : j < i) : B[j]? = some esc := by
  induction i with
  | zero => cases hj
  | succ i ih =>
    rw [escRun_succ hi] at hlo
    split at hlo
    next hesc =>
      rcases Nat.lt_succ_iff_lt_or_eq.mp hj with hlt | rfl
      · exact ih (by omega) (by omega) hlt
      · rw [List.getElem?_eq_getElem hi, hesc]
    next => omega

/-- No block of ESC bytes that ends just before the index is longer than Run. -/
theorem le_escRun_of_block {B : List Byte} {i k : Nat} (hi : i ≤ B.length) (hk : k ≤ i)
    (hblock : ∀ j, i - k ≤ j → j < i → B[j]? = some esc) : k ≤ escRun B i := by
  induction i generalizing k with
  | zero => simpa using hk
  | succ i ih =>
    cases k with
    | zero => exact Nat.zero_le _
    | succ k =>
      have hesc : B[i] = esc := by
        simpa [List.getElem?_eq_getElem hi] using hblock i (by omega) (Nat.lt_succ_self i)
      have hrest : k ≤ escRun B i :=
        ih (by omega) (by omega) fun j hlo hj => hblock j (by omega) (by omega)
      rw [escRun_succ hi, if_pos hesc]
      omega

theorem escRun_take {B : List Byte} {i k : Nat} (h : i ≤ k) : escRun (B.take k) i = escRun B i := by
  rw [escRun, List.take_take, Nat.min_eq_left h, escRun]

theorem escaped_eq_true_iff {B : List Byte} {i : Nat} : escaped B i = true ↔ escRun B i % 2 = 1 := beq_iff_eq

theorem escaped_eq_false_iff {B : List Byte} {i : Nat} : escaped B i = false ↔ escRun B i % 2 = 0 := by
  rw [Bool.eq_false_iff, Ne, escaped_eq_true_iff, Nat.mod_two_not_eq_one]

/-- Settles O25: the counted bytes are a block of ESC, and no longer block ends there. -/
theorem escapeRunIsMaximal : Obligations.EscapeRunIsMaximal := fun B i hi =>
  ⟨escRun_le B i, fun _ => getElem?_of_in_escRun hi, fun _ => le_escRun_of_block hi, escaped_eq_true_iff⟩

theorem lastStart_eq_none_iff {B : List Byte} {e : Nat} :
    lastStart B e = none ↔ ∀ j, j < e → ¬UnescapedStx B j := by
  induction e with
  | zero => simp
  | succ e ih =>
    rw [Nat.forall_lt_succ_right, ← ih, ← startAt_iff, lastStart_succ]
    cases startAt B e <;> simp

/-- Settles O26: "no unescaped STX between b0 and e" says that none before e is greater than b0. -/
theorem lastStartIsLatest : Obligations.LastStartIsLatest := by
  refine fun B e => ⟨fun b0 => ?_, lastStart_eq_none_iff⟩
  rw [lastStart_eq_some_iff, and_assoc]
  refine and_congr_right fun _ => and_congr_right fun _ => forall_congr' fun j => ?_
  rw [← Nat.not_lt]
  exact ⟨fun h hj hs hlt => h hlt hj hs, fun h hlt hj hs => h hj hs hlt⟩

/-- Settles O27. -/
theorem closeAcceptsExactly : Obligations.CloseAcceptsExactly :=
  fun _ _ _ _ => closeSpan_eq_some_iff

/-- Settles O28: the interior's 2N + 1 bytes, its STX and its ETX. -/
theorem closableBufferIsLong : Obligations.ClosableBufferIsLong := by
  intro n B b0 e h
  have hroom := (closeSpan_eq_some_iff.mp h).2.room
  rw [minInterior] at hroom
  omega

end Sys2Proof.Machine
end

section
/-! SUPPORT and CERTIFICATE. The synchronizer inside a frame (spec/40_codec_functions.md R69). After bytes that end in
an even run of ESC, the wire bytes of one more byte end in an even run again, and a delimiter among them is escaped. -/

namespace Sys2Proof.Machine

theorem escRun_append_esc1_even {A : List Byte} (b : Byte) (hA : escRun A A.length % 2 = 0) :
    escRun (A ++ esc1 b) (A ++ esc1 b).length % 2 = 0 := by
  cases h : isCtrl b with
  | true =>
    have hpair : A ++ esc1 b = A ++ [esc] ++ [b] := by simp [esc1_of_ctrl h]
    rw [hpair, List.length_append, List.length_singleton, escRun_concat, List.length_append, List.length_singleton,
      escRun_concat, if_pos rfl]
    split <;> omega
  | false =>
    rw [esc1_of_data h, List.length_append, List.length_singleton, escRun_concat, if_neg (ne_esc_of_data h)]

theorem escRun_append_stuff_even {A : List Byte} (S : List Byte) (hA : escRun A A.length % 2 = 0) :
    escRun (A ++ stuff S) (A ++ stuff S).length % 2 = 0 := by
  induction S generalizing A with
  | nil => simpa using hA
  | cons b S ih =>
    rw [stuff_cons, ← List.append_assoc]
    exact ih (escRun_append_esc1_even b hA)

theorem escRun_odd_of_delimiter_in_esc1 {A : List Byte} {b : Byte} {i : Nat} (hA : escRun A A.length % 2 = 0)
    (hlo : A.length ≤ i) (hc : (A ++ esc1 b)[i]? = some stx ∨ (A ++ esc1 b)[i]? = some etx) :
    escRun (A ++ esc1 b) i % 2 = 1 := by
  rw [List.getElem?_append_right hlo] at hc
  obtain ⟨k, rfl⟩ := Nat.exists_eq_add_of_le hlo
  rw [Nat.add_sub_cancel_left] at hc
  cases h : isCtrl b with
  | true =>
    rw [esc1_of_ctrl h] at hc ⊢
    match k with
    | 0 => simp [stx, etx, esc] at hc
    | 1 =>
      have hpair : A ++ [esc, b] = A ++ [esc] ++ [b] := by simp
      rw [hpair, escRun_append_of_le _ (by simp), escRun_concat, if_pos rfl]
      omega
    | k + 2 => simp at hc
  | false =>
    rw [esc1_of_data h] at hc
    have hdelim : b = stx ∨ b = etx := by
      match k with
      | 0 => simpa using hc
      | k + 1 => simp at hc
    rw [isCtrl_iff.mpr (hdelim.imp_right .inl)] at h
    cases h

theorem escRun_odd_of_delimiter_in_stuff {A S : List Byte} {i : Nat} (hA : escRun A A.length % 2 = 0)
    (hlo : A.length ≤ i) (hc : (A ++ stuff S)[i]? = some stx ∨ (A ++ stuff S)[i]? = some etx) :
    escRun (A ++ stuff S) i % 2 = 1 := by
  induction S generalizing A with
  | nil => simp [List.getElem?_eq_none hlo] at hc
  | cons b S ih =>
    rw [stuff_cons, ← List.append_assoc] at hc ⊢
    rcases Nat.lt_or_ge i (A ++ esc1 b).length with hlt | hge
    · rw [List.getElem?_append_left hlt] at hc
      rw [escRun_append_of_le _ hlt.le]
      exact escRun_odd_of_delimiter_in_esc1 hA hlo hc
    · exact ih (escRun_append_esc1_even b hA) hge hc

/-- A frame after other bytes: all up to its STX, its interior, its ETX. -/
theorem append_frame_eq (P : List Byte) (F : List Half) :
    P ++ frame F = P ++ [stx] ++ stuff (interiorBytes F) ++ [etx] := by
  simp [frame]

/-- The closing ETX stands where all before it ends. -/
theorem append_frame_length_sub_one (P : List Byte) (F : List Half) :
    (P ++ frame F).length - 1 = (P ++ [stx] ++ stuff (interiorBytes F)).length := by
  simp [append_frame_eq]

theorem escRun_after_stx_even (P : List Byte) : escRun (P ++ [stx]) (P ++ [stx]).length % 2 = 0 := by
  rw [List.length_append, List.length_singleton, escRun_concat, if_neg (by decide)]

/-- R69 (a). -/
theorem escRun_odd_in_frame {P : List Byte} {F : List Half} {i : Nat} (hlo : P.length < i)
    (hi : i < (P ++ frame F).length - 1) (hc : (P ++ frame F)[i]? = some stx ∨ (P ++ frame F)[i]? = some etx) :
    escRun (P ++ frame F) i % 2 = 1 := by
  rw [append_frame_length_sub_one] at hi
  rw [append_frame_eq, List.getElem?_append_left hi] at hc
  rw [append_frame_eq, escRun_append_of_le _ hi.le]
  exact escRun_odd_of_delimiter_in_stuff (escRun_after_stx_even P) (by simpa using hlo) hc

/-- R69 (b) for the closing ETX. -/
theorem escRun_even_at_frame_end (P : List Byte) (F : List Half) :
    escRun (P ++ frame F) ((P ++ frame F).length - 1) % 2 = 0 := by
  rw [append_frame_length_sub_one, append_frame_eq, escRun_append_of_le _ le_rfl]
  exact escRun_append_stuff_even _ (escRun_after_stx_even P)

/-- R69 (b) for the frame's STX. -/
theorem unescapedStx_at_frame_start {P : List Byte} (F : List Half)
    (hP : escRun (P ++ [stx]) P.length % 2 = 0) : UnescapedStx (P ++ frame F) P.length := by
  rw [append_frame_eq, List.append_assoc]
  refine ⟨by simp, ?_⟩
  rwa [escRun_append_of_le _ (by simp)]

theorem not_unescapedStx_in_frame {P : List Byte} {F : List Half} {j : Nat} (hlo : P.length < j)
    (hj : j < (P ++ frame F).length - 1) : ¬UnescapedStx (P ++ frame F) j := by
  rintro ⟨hstx, heven⟩
  have hodd := escRun_odd_in_frame hlo hj (.inl hstx)
  omega

/-- Of a buffer that ends inside the frame, Close accepts nothing: its last byte is the STX or no unescaped ETX. -/
theorem closeSpan_take_in_frame (n : FieldCount) {P : List Byte} {F : List Half} {j : Nat} (hlo : P.length ≤ j)
    (hj : j < (P ++ frame F).length - 1) : closeSpan n ((P ++ frame F).take (j + 1)) = none := by
  refine closeSpan_eq_none_iff.mpr fun b0 hclose => ?_
  have hlen : ((P ++ frame F).take (j + 1)).length = j + 1 := List.length_take_of_le (by omega)
  have hetx : (P ++ frame F)[j]? = some etx := by
    have h := hclose.lastIsEtx
    rwa [List.getLast?_eq_getElem?, hlen, Nat.add_sub_cancel, List.getElem?_take_of_lt (Nat.lt_succ_self j)] at h
  have heven : escRun (P ++ frame F) j % 2 = 0 := by
    have h := hclose.etxUnescaped
    rwa [hlen, Nat.add_sub_cancel, escRun_take (Nat.le_succ j)] at h
  rcases hlo.eq_or_lt with rfl | hlt
  · simp [frame, stx, etx] at hetx
  · have hodd := escRun_odd_in_frame hlt hj (.inr hetx)
    omega

/-- The whole frame closes the span from its STX to its ETX. -/
theorem closesAt_append_frame {n : FieldCount} {P : List Byte} {F : List Half} (hF : F.length = n.toNat)
    (hP : escRun (P ++ [stx]) P.length % 2 = 0) : ClosesAt n (P ++ frame F) P.length where
  lastIsEtx := by rw [append_frame_eq, List.getLast?_concat]
  etxUnescaped := escRun_even_at_frame_end P F
  isStart := unescapedStx_at_frame_start F hP
  isLatest _ := not_unescapedStx_in_frame
  room := by
    rw [List.length_append, frame_length, hF, minInterior]
    omega

/-- Settles O29: (a) and (b) give the last start and the closures. -/
theorem frameShowsOnlyItsDelimiters : Obligations.FrameShowsOnlyItsDelimiters := by
  intro n P F hF hP B
  have hstart : UnescapedStx B P.length := unescapedStx_at_frame_start F hP
  refine ⟨fun i hlo hi hc => escaped_eq_true_iff.mpr (escRun_odd_in_frame hlo hi hc),
    escaped_eq_false_iff.mpr hstart.2, escaped_eq_false_iff.mpr (escRun_even_at_frame_end P F),
    fun j hlo hj => lastStart_eq_some_iff.mpr
      ⟨hlo, hstart, fun k hk hkj => not_unescapedStx_in_frame hk (hkj.trans_le hj)⟩,
    fun j => closeSpan_take_in_frame n, closeSpan_eq_some_iff.mpr ⟨rfl, closesAt_append_frame hF hP⟩⟩

end Sys2Proof.Machine
end

section
/-! SUPPORT and CERTIFICATE. The encoder commands, each by an equation of its own (spec/41_encoder.md R70 to R72). -/

namespace Sys2Proof.Machine

/-! ## EWF -/

/-- EWF of a register. -/
theorem exec_ewf_of_lt {s : State} {idx : Index} (v : Half) (h : idx.toNat < s.n.toNat) :
    exec (.ewf idx v) s = .next { s with ef := writeReg s.ef idx v, rsp := some 0x00000000#32 } :=
  if_pos (decide_eq_true h)

theorem exec_ewf_of_le {s : State} {idx : Index} (v : Half) (h : s.n.toNat ≤ idx.toNat) :
    exec (.ewf idx v) s = .next { s with rsp := some 0x80000000#32 } :=
  if_neg (not_indexInRange_of_le h)

theorem writeReg_getElem?_self {file : List Half} {idx : Index} (v : Half) (h : idx.toNat < file.length) :
    (writeReg file idx v)[idx.toNat]? = some v :=
  List.getElem?_set_self h

theorem writeReg_getElem?_of_ne {file : List Half} {idx : Index} {j : Nat} (v : Half) (h : j ≠ idx.toNat) :
    (writeReg file idx v)[j]? = file[j]? :=
  List.getElem?_set_ne h.symm

/-- Settles O13: the two ranges of the index; within N the register file is written at the index only. -/
theorem ewfWritesOneRegister : Obligations.EwfWritesOneRegister := by
  refine fun s idx v =>
    ⟨fun hidx hef => ⟨_, exec_ewf_of_lt v hidx, writeReg_length _ _ _, ?_, ?_⟩, exec_ewf_of_le v⟩
  · exact writeReg_getElem?_self v (hef ▸ hidx)
  · exact fun j => writeReg_getElem?_of_ne v

/-! ## ESTART -/

theorem response_estartData {length : Nat} (h : length < 2 ^ 16) :
    response false (estartData length) = BitVec.ofNat 32 length := by
  rw [response_false, estartData]
  refine BitVec.eq_of_toNat_eq ?_
  simp
  omega

theorem exec_estart (s : State) :
    exec .estart s =
      .next { s with txq := frame s.ef, rsp := some (response false (estartData (frame s.ef).length)) } :=
  rfl

/-- Settles O14: the statement's bytes are R46's frame, whose length R49 bounds. -/
theorem estartLatchesFrame : Obligations.EstartLatchesFrame := by
  intro s hef P fr
  have hfr : fr = frame s.ef := rfl
  have hlen := frame_length s.ef
  have hmax : (frame s.ef).length ≤ 4 * s.n.toNat + 3 := frame_length_le_maxFrame hef
  have hfour := s.n.toNat_le_four
  rw [hfr]
  refine ⟨?_, by omega, hmax, by omega⟩
  rw [exec_estart, response_estartData (by omega)]

/-! ## TXPOP -/

theorem txpopData_toNat (b : Byte) : (txpopData b).toNat = 0x100 + b.toNat := by
  have hor : 2 ^ 8 ||| b.toNat = 2 ^ 8 + b.toNat := by simpa using (Nat.two_pow_add_eq_or_of_lt b.isLt 1).symm
  have hwidth : (b.setWidth 16).toNat = b.toNat := BitVec.toNat_setWidth_of_le (by decide)
  rw [txpopData, BitVec.toNat_or, hwidth]
  exact hor

theorem response_txpopData (b : Byte) : response false (txpopData b) = BitVec.ofNat 32 (0x100 + b.toNat) := by
  rw [response_false, ← txpopData_toNat, BitVec.ofNat_toNat]

theorem exec_txpop_of_cons {s : State} {b : Byte} {rest : List Byte} (h : s.txq = b :: rest) :
    exec .txpop s = .next { s with txq := rest, rsp := some (response false (txpopData b)) } := by
  simp only [exec, execTxpop, h, complete]

theorem exec_txpop_of_nil {s : State} (h : s.txq = []) :
    exec .txpop s = .next { s with rsp := some 0x00000000#32 } := by
  simp only [exec, execTxpop, h, complete]
  rfl

/-- Settles O15: the two cases of TXQ. -/
theorem txpopOutputsNextByte : Obligations.TxpopOutputsNextByte := by
  refine ⟨fun s b rest h => ?_, fun s => exec_txpop_of_nil⟩
  rw [exec_txpop_of_cons h, response_txpopData]

end Sys2Proof.Machine
end

section
/-! SUPPORT and CERTIFICATE. The encode function through the port (spec/41_encoder.md R73). -/

namespace Sys2Proof.Machine

/-! ## The bytes that a sequence of commands takes out -/

@[simp] theorem validByte_txpop_response (b : Byte) : validByte (response false (txpopData b)) = some b := by
  have hvalid : (response false (txpopData b)).getLsbD 8 = true := by
    simp [response_false, txpopData]
  have hbyte : (response false (txpopData b)).extractLsb' 0 8 = b := by
    rw [response_txpopData]
    refine BitVec.eq_of_toNat_eq ?_
    simp
    omega
  rw [validByte, if_pos hvalid, hbyte]

section
variable {s u : State} {i : Instr}

theorem CommandEffect.exists_rsp (h : CommandEffect s i u) : ∃ r, u.rsp = some r := by
  cases h <;> exact ⟨_, rfl⟩

/-- The first command's response, and then the others' from the state it leaves. -/
theorem responses_cons {r : Word} (is : List Instr) (h : exec i s = .next u) (hr : u.rsp = some r) :
    responses (is.length + 1) (s.present (commandInputs (i :: is))) =
      r :: responses is.length (u.present (commandInputs is)) := by
  have hstep : step (s.present (commandInputs (i :: is))) = .next (u.present (commandInputs is)) :=
    (step_present_encode s i _).trans (exec_present _ h)
  have hr' : (u.present (commandInputs is)).rsp = some r := hr
  simp only [responses, hstep, hr', Option.toList_some, List.singleton_append]

theorem poppedBytes_cons_of_ne_txpop (is : List Instr) (h : exec i s = .next u) (hi : i ≠ .txpop) :
    poppedBytes s (i :: is) = poppedBytes u is := by
  obtain ⟨r, hr⟩ := (exec_effect h).exists_rsp
  rw [poppedBytes, List.length_cons, responses_cons is h hr]
  simp [poppedBytes, hi]

theorem poppedBytes_txpop_cons {b : Byte} {q : List Byte} (is : List Instr) (h : s.txq = b :: q) :
    poppedBytes s (.txpop :: is) =
      b :: poppedBytes { s with txq := q, rsp := some (response false (txpopData b)) } is := by
  rw [poppedBytes, List.length_cons, responses_cons is (exec_txpop_of_cons h) rfl]
  simp [poppedBytes]

/-- A command that is none of the encoder's takes no byte out and leaves the encoder half as it is. -/
theorem poppedBytes_cons_of_not_encoder (s : State) (is : List Instr) (hi : isEncoderCommand i = false) :
    ∃ u, AgreeEncoder u s ∧ poppedBytes s (i :: is) = poppedBytes u is := by
  obtain ⟨u, h⟩ := exec_completes i s
  have hne : i ≠ .txpop := by
    rintro rfl
    cases hi
  exact ⟨u, (exec_effect h).agreeEncoder hi, poppedBytes_cons_of_ne_txpop is h hne⟩

end

/-! ## After ESTART -/

/-- As many TXPOPs as TXQ has bytes take out TXQ. -/
theorem poppedBytes_of_txpops {s : State} {is : List Instr}
    (his : is.filter isEncoderCommand = List.replicate s.txq.length .txpop) : poppedBytes s is = s.txq := by
  induction is generalizing s with
  | nil =>
    have hempty : s.txq = [] := by simpa using his.symm
    simp [poppedBytes, hempty]
  | cons i is ih =>
    cases hi : isEncoderCommand i with
    | false =>
      obtain ⟨u, hu, hpopped⟩ := poppedBytes_cons_of_not_encoder s is hi
      rw [List.filter_cons_of_neg (by simp [hi]), ← hu.txq] at his
      rw [hpopped, ih his, hu.txq]
    | true =>
      rw [List.filter_cons_of_pos hi] at his
      cases hq : s.txq with
      | nil => simp [hq] at his
      | cons b q =>
        rw [hq, List.length_cons, List.replicate_succ, List.cons.injEq] at his
        obtain ⟨rfl, hrest⟩ := his
        rw [poppedBytes_txpop_cons is hq, ih hrest]

/-! ## The EWFs -/

theorem mem_ewfCommands {F : List Half} {k : Nat} {w : Instr} :
    w ∈ ewfCommands k F ↔ ∃ i f, F[i]? = some f ∧ w = .ewf (BitVec.ofNat 2 (k + i)) f := by
  induction F generalizing k with
  | nil => simp [ewfCommands]
  | cons f F ih =>
    rw [ewfCommands, List.mem_cons, ih]
    constructor
    · rintro (rfl | ⟨i, g, hg, rfl⟩)
      · exact ⟨0, f, rfl, rfl⟩
      · exact ⟨i + 1, g, hg, by rw [Nat.add_right_comm, Nat.add_assoc]⟩
    · rintro ⟨i, g, hg, rfl⟩
      cases i with
      | zero =>
        obtain rfl : f = g := by simpa using hg
        exact .inl rfl
      | succ i => exact .inr ⟨i, g, hg, by rw [Nat.add_right_comm, Nat.add_assoc]⟩

theorem mem_ewfCommands_zero {F : List Half} {w : Instr} :
    w ∈ ewfCommands 0 F ↔ ∃ i f, F[i]? = some f ∧ w = .ewf (BitVec.ofNat 2 i) f := by
  simpa only [Nat.zero_add] using mem_ewfCommands (k := 0)

theorem index_toNat_ofNat {i : Nat} (h : i < 4) : (BitVec.ofNat 2 i).toNat = i := Nat.mod_eq_of_lt h

/-- EF on its way to F: each register holds its field or has its EWF among those still to come, and these write
fields of F only. -/
structure WritesComplete (F ef : List Half) (writes : List Instr) : Prop where
  size : ef.length = F.length
  fromFields : ∀ w ∈ writes, w ∈ ewfCommands 0 F
  heldOrToCome : ∀ i f, F[i]? = some f → ef[i]? = some f ∨ .ewf (BitVec.ofNat 2 i) f ∈ writes

/-- With no EWF to come, EF is F. -/
theorem WritesComplete.ef_eq {F ef : List Half} (h : WritesComplete F ef []) : ef = F := by
  refine List.ext_getElem h.size fun i hi hF => ?_
  have hheld : ef[i]? = some F[i] := by
    simpa using h.heldOrToCome i F[i] (List.getElem?_eq_getElem hF)
  simpa [List.getElem?_eq_getElem hi] using hheld

/-- The next EWF writes a field of F into its register. -/
theorem WritesComplete.next {F ef : List Half} {w : Instr} {writes : List Instr} (hF : F.length ≤ 4)
    (h : WritesComplete F ef (w :: writes)) :
    ∃ idx v, w = .ewf idx v ∧ idx.toNat < F.length ∧ WritesComplete F (writeReg ef idx v) writes := by
  obtain ⟨i, v, hv, rfl⟩ := mem_ewfCommands_zero.mp (h.fromFields w List.mem_cons_self)
  have hi : i < F.length := (List.getElem?_eq_some_iff.mp hv).1
  have hidx := index_toNat_ofNat (hi.trans_le hF)
  refine ⟨_, v, rfl, hidx.symm ▸ hi, (writeReg_length _ _ _).trans h.size,
    fun w' hw' => h.fromFields w' (List.mem_cons_of_mem _ hw'), fun j f hf => ?_⟩
  by_cases hj : j = (BitVec.ofNat 2 i).toNat
  · obtain rfl : v = f := by simpa [hj, hidx, hv] using hf
    rw [hj]
    exact .inl (writeReg_getElem?_self v (hidx.symm ▸ h.size ▸ hi))
  · rw [writeReg_getElem?_of_ne v hj]
    refine (h.heldOrToCome j f hf).imp_right fun hmem => List.mem_of_ne_of_mem (fun heq => hj ?_) hmem
    have hjF : j < F.length := (List.getElem?_eq_some_iff.mp hf).1
    rw [← (Instr.ewf.inj heq).1, index_toNat_ofNat (hjF.trans_le hF)]

/-- From an EF on its way to F, the rest of R73's sequence takes out Frame(F). -/
theorem poppedBytes_of_writesComplete {s : State} {F : List Half} {writes is : List Instr}
    (hF : F.length = s.n.toNat) (hw : WritesComplete F s.ef writes)
    (his : is.filter isEncoderCommand = writes ++ .estart :: List.replicate (frame F).length .txpop) :
    poppedBytes s is = frame F := by
  induction is generalizing s writes with
  | nil => simp at his
  | cons i is ih =>
    cases hi : isEncoderCommand i with
    | false =>
      obtain ⟨u, hu, hpopped⟩ := poppedBytes_cons_of_not_encoder s is hi
      rw [List.filter_cons_of_neg (by simp [hi])] at his
      rw [hpopped]
      exact ih (hu.n ▸ hF) (hu.ef ▸ hw) his
    | true =>
      rw [List.filter_cons_of_pos hi] at his
      cases writes with
      | nil =>
        obtain ⟨rfl, hrest⟩ := List.cons.inj his
        rw [poppedBytes_cons_of_ne_txpop is (exec_estart s) nofun, hw.ef_eq]
        exact poppedBytes_of_txpops hrest
      | cons w writes =>
        obtain ⟨rfl, hrest⟩ := List.cons.inj his
        obtain ⟨idx, v, rfl, hidx, hnext⟩ := hw.next (hF ▸ s.n.toNat_le_four)
        rw [poppedBytes_cons_of_ne_txpop is (exec_ewf_of_lt v (hF ▸ hidx)) nofun]
        exact ih hF hnext hrest

/-- Settles O16: the EWFs complete EF in whatever order they come, ESTART latches its frame, and the TXPOPs drain
TXQ. -/
theorem encodeSequenceEmitsFrame : Obligations.EncodeSequenceEmitsFrame := by
  intro s F writes is hef hF hperm his
  refine poppedBytes_of_writesComplete hF ⟨hef.trans hF.symm, fun w => hperm.mem_iff.mp, fun i f hf => .inr ?_⟩ his
  exact hperm.mem_iff.mpr (mem_ewfCommands_zero.mpr ⟨i, f, hf, rfl⟩)

end Sys2Proof.Machine
end

section
/-! SUPPORT and CERTIFICATE. A frame handed byte by byte to a core, and the transfer between two peers
(spec/42_decoder.md R83, spec/70_reset_and_hazards.md R110). -/

namespace Sys2Proof.Machine

/-! ## A frame's span decodes to its fields -/

theorem fieldAt_append_of_lt {V : List Byte} (W : List Byte) {i : Nat} (h : 2 * i + 1 < V.length) :
    fieldAt (V ++ W) i = fieldAt V i := by
  rw [fieldAt, List.getD_append _ _ _ _ (by omega), List.getD_append _ _ _ _ h, fieldAt]

/-- Bytes after the first 2N do not count. -/
theorem fieldsOf_append {n : FieldCount} {V : List Byte} (W : List Byte) (h : V.length = 2 * n.toNat) :
    fieldsOf n (V ++ W) = fieldsOf n V := by
  refine List.map_congr_left fun i hi => fieldAt_append_of_lt W ?_
  have hlt := List.mem_range.mp hi
  omega

theorem decodeInterior_interiorBytes {n : FieldCount} {F : List Half} (hF : F.length = n.toNat) :
    decodeInterior n (interiorBytes F) = (F, true) := by
  have hlen : (payload F).length = 2 * n.toNat := by rw [payload_length, hF]
  have htake : (interiorBytes F).take (2 * n.toNat) = payload F := List.take_left' hlen
  have hlast : (interiorBytes F).getLast? = some (checksum F) := List.getLast?_concat
  have hfields : fieldsOf n (interiorBytes F) = F := (fieldsOf_append _ hlen).trans (fieldsOf_payload hF)
  simp [decodeInterior, hfields, htake, hlast, checksum, hF]

theorem between_append_frame (P : List Byte) (F : List Half) :
    between (P ++ frame F) P.length ((P ++ frame F).length - 1) = stuff (interiorBytes F) := by
  rw [between, append_frame_length_sub_one, append_frame_eq, List.take_left]
  exact List.drop_left' (by simp)

/-- The raw interior is unstuffed, and its fields and checksum are those of F. -/
theorem decodeSpan_append_frame {n : FieldCount} (P : List Byte) {F : List Half} (hF : F.length = n.toNat) :
    decodeSpan n (P ++ frame F) P.length ((P ++ frame F).length - 1) = (F, true) := by
  rw [decodeSpan, between_append_frame, unstuffUndoesStuff, decodeInterior_interiorBytes hF]

/-! ## RXB, by whether the byte closes a span -/

theorem exec_rxb_of_closesAt {s : State} {b : Byte} {b0 : Nat} {D : List Half × Bool}
    (h : ClosesAt s.n (s.rxbuf ++ [b]) b0) (hD : decodeSpan s.n (s.rxbuf ++ [b]) b0 s.rxbuf.length = D) :
    exec (.rxb b) s = .next
      { closeFrame s D.1 D.2 with
        rsp := some (response false (rxbData (inFrame []) false true (statusOf true D.2))) } := by
  have hend : s.rxbuf.length = (s.rxbuf ++ [b]).length - 1 := by simp
  have hclose : closeSpan s.n (s.rxbuf ++ [b]) = some (b0, s.rxbuf.length) := closeSpan_eq_some_iff.mpr ⟨hend, h⟩
  simp only [exec, execRxb, hclose, hD]
  rfl

theorem exec_rxb_of_not_closesAt {s : State} {b : Byte} (h : ∀ b0, ¬ClosesAt s.n (s.rxbuf ++ [b]) b0) :
    exec (.rxb b) s = .next
      { s with
        rxbuf := trim s.n (s.rxbuf ++ [b])
        rsp := some (response false (rxbData (inFrame (trim s.n (s.rxbuf ++ [b])))
          (trims s.n (s.rxbuf ++ [b])) false s.status)) } := by
  simp only [exec, execRxb, closeSpan_eq_none_iff.mpr h]
  rfl

/-! ## The bytes before a frame -/

theorem getLast?_ne_of_suffix {P Q : List Byte} {b : Byte} (hQ : Q <:+ P) (hP : P.getLast? ≠ some b) :
    Q.getLast? ≠ some b := by
  obtain ⟨R, rfl⟩ := hQ
  intro hlast
  simp [hlast] at hP

theorem escRun_append_of_getLast?_ne {P : List Byte} (T : List Byte) (hP : P.getLast? ≠ some esc) :
    escRun (P ++ T) P.length = 0 := by
  rw [escRun_append_of_le T le_rfl]
  rcases P.eq_nil_or_concat' with rfl | ⟨R, b, rfl⟩
  · rfl
  · have hb : b ≠ esc := by simpa using hP
    rw [List.length_append, List.length_singleton, escRun_concat, if_neg hb]

/-- The trim takes nothing from bytes that fit into the buffer. -/
theorem trim_append {n : FieldCount} (P : List Byte) {A : List Byte} (hA : A.length ≤ maxBuf n) :
    ∃ Q, Q <:+ P ∧ trim n (P ++ A) = Q ++ A := by
  unfold trim
  split
  next hlong =>
    rw [List.length_append] at hlong
    exact ⟨P.drop 1, List.drop_suffix 1 P, List.drop_append_of_le_length (by omega)⟩
  next => exact ⟨P, List.suffix_rfl, rfl⟩

/-! ## A frame, byte by byte -/

/-- A byte of a frame before its ETX closes nothing, and the frame's bytes so far stay in the buffer. -/
theorem exec_rxb_in_frame {s : State} {F : List Half} {P A C : List Byte} {b : Byte} (hF : F.length = s.n.toNat)
    (hbuf : s.rxbuf = P ++ A) (hframe : frame F = A ++ b :: C) (hC : C ≠ []) :
    ∃ Q r, Q <:+ P ∧ exec (.rxb b) s = .next { s with rxbuf := Q ++ (A ++ [b]), rsp := some r } := by
  have hpos : 1 ≤ C.length := List.length_pos_iff.mpr hC
  have hlen : (frame F).length = A.length + 1 + C.length := by
    rw [hframe, List.length_append, List.length_cons]
    omega
  have htake : (P ++ frame F).take (P.length + A.length + 1) = s.rxbuf ++ [b] := by
    rw [hframe, hbuf, List.append_cons, ← List.append_assoc, ← List.append_assoc]
    exact List.take_left' (by simp [Nat.add_assoc])
  have hopen : closeSpan s.n (s.rxbuf ++ [b]) = none := by
    rw [← htake]
    exact closeSpan_take_in_frame s.n (Nat.le_add_right _ _) (by rw [List.length_append]; omega)
  have hfits : (A ++ [b]).length ≤ maxBuf s.n := by
    have hmax := frame_length_le_maxFrame hF
    rw [maxFrame] at hmax
    rw [List.length_append, List.length_singleton, maxBuf]
    omega
  obtain ⟨Q, hQ, htrim⟩ := trim_append P hfits
  have hexec := exec_rxb_of_not_closesAt (closeSpan_eq_none_iff.mp hopen)
  rw [hbuf, List.append_assoc, htrim] at hexec
  exact ⟨Q, _, hQ, hexec⟩

/-- `s` after it has received a frame of F and nothing else is presented. -/
def State.afterFrame (s : State) (F : List Half) : State :=
  { closeFrame s F true with port := [], rsp := some (response false (rxbData (inFrame []) false true 1#2)) }

/-- The last byte of a frame closes it. -/
theorem exec_rxb_frame_end {s : State} {F : List Half} {P : List Byte} {b : Byte} (hF : F.length = s.n.toNat)
    (hP : P.getLast? ≠ some esc) (hbuf : s.rxbuf ++ [b] = P ++ frame F) (hport : s.port = []) :
    exec (.rxb b) s = .next (s.afterFrame F) := by
  have hcloses : ClosesAt s.n (s.rxbuf ++ [b]) P.length := by
    rw [hbuf]
    exact closesAt_append_frame hF (by rw [escRun_append_of_getLast?_ne _ hP])
  have hdecode : decodeSpan s.n (s.rxbuf ++ [b]) P.length s.rxbuf.length = (F, true) := by
    have hend : s.rxbuf.length = (P ++ frame F).length - 1 := by simp [← hbuf]
    rw [hbuf, hend, decodeSpan_append_frame P hF]
  rw [exec_rxb_of_closesAt hcloses hdecode, State.afterFrame, ← hport]
  rfl

/-- A run takes the first command and goes on from the state it leaves. -/
theorem run_first_command {s u : State} {i : Instr} (k : Nat) (rest : List Input) (h : exec i s = .next u) :
    Host.Core.run Sys2Proof.core (k + 1) (s.present (.command (encode i) :: rest)) =
      Host.Core.run Sys2Proof.core k (u.present rest) :=
  run_succ_of_step k ((step_present_encode s i rest).trans (exec_present rest h))

/-- The rest of a frame completes it. -/
theorem run_rest_of_frame {s : State} {F : List Half} {P A C : List Byte} (hF : F.length = s.n.toNat)
    (hP : P.getLast? ≠ some esc) (hbuf : s.rxbuf = P ++ A) (hframe : frame F = A ++ C) (hC : C ≠ []) :
    Host.Core.run Sys2Proof.core C.length (s.present (rxbInputs C)) = .next (s.afterFrame F) := by
  induction C generalizing s P A with
  | nil => exact absurd rfl hC
  | cons b C ih =>
    by_cases hlast : C = []
    · subst hlast
      have hend : (s.present []).rxbuf ++ [b] = P ++ frame F := by
        rw [hframe, ← List.append_assoc, ← hbuf]
        rfl
      exact run_succ_of_step 0
        ((step_present_encode s (.rxb b) []).trans (exec_rxb_frame_end hF hP hend rfl))
    · obtain ⟨Q, r, hQ, hexec⟩ := exec_rxb_in_frame hF hbuf hframe hlast
      have hframe' : frame F = A ++ [b] ++ C := by simp [hframe]
      exact (run_first_command C.length (rxbInputs C) hexec).trans
        (ih hF (getLast?_ne_of_suffix hQ hP) rfl hframe' hlast)

/-- A frame handed to a core whose buffer does not end in ESC is received. -/
theorem run_frame {s : State} {F : List Half} (hF : F.length = s.n.toNat) (hs : s.rxbuf.getLast? ≠ some esc) :
    Host.Core.run Sys2Proof.core (frame F).length (s.present (rxbInputs (frame F))) = .next (s.afterFrame F) :=
  run_rest_of_frame hF hs (List.append_nil _).symm rfl (List.cons_ne_nil _ _)

/-! ## Two peers -/

/-- The bytes that a host takes out with `encodeCommands` are F's frame. -/
theorem poppedBytes_encodeCommands {s : State} {F : List Half} (hef : s.ef.length = s.n.toNat)
    (hF : F.length = s.n.toNat) : poppedBytes s (encodeCommands F (frame F).length) = frame F := by
  refine encodeSequenceEmitsFrame s F (ewfCommands 0 F) _ hef hF (.refl _) (List.filter_eq_self.mpr fun i hi => ?_)
  rcases List.mem_append.mp hi with hewf | hrest
  · obtain ⟨_, _, _, rfl⟩ := mem_ewfCommands_zero.mp hewf
    rfl
  · rcases List.mem_cons.mp hrest with rfl | hpop
    · rfl
    · rw [List.eq_of_mem_replicate hpop]
      rfl

/-- Settles O49: the sender gives out F's frame, and the receiver closes it with F. -/
theorem peersTransferFields : Obligations.PeersTransferFields := by
  intro sender receiver F hsender _ hn hF hesc sent
  have hsent : sent = frame F := poppedBytes_encodeCommands hsender.efSize hF
  rw [hsent]
  exact ⟨receiver.afterFrame F, run_frame (hn ▸ hF) hesc, rfl, rfl, rfl⟩

end Sys2Proof.Machine
end

section
/-! SUPPORT. A sequence of commands run one after the other, with what each answers. -/

namespace Sys2Proof.Machine

/-- `CommandRun s is rs t`: the commands `is`, run in order from `s`, answer `rs` and leave `t`. -/
inductive CommandRun : State → List Instr → List Word → State → Prop
  | nil (s : State) : CommandRun s [] [] s
  | cons {s u t : State} {i : Instr} {is : List Instr} {r : Word} {rs : List Word} (first : exec i s = .next u)
    (answer : u.rsp = some r) (rest : CommandRun u is rs t) : CommandRun s (i :: is) (r :: rs) t

section
variable {s t : State} {is : List Instr} {rs : List Word}

theorem CommandRun.run (h : CommandRun s is rs t) :
    Host.Core.run Sys2Proof.core is.length (s.present (commandInputs is)) = .next (t.present []) := by
  induction h with
  | nil => rfl
  | cons first _ _ ih => exact (run_first_command _ _ first).trans ih

theorem CommandRun.responses (h : CommandRun s is rs t) :
    responses is.length (s.present (commandInputs is)) = rs := by
  induction h with
  | nil => rfl
  | cons first answer _ ih => rw [List.length_cons, responses_cons _ first answer, ih]

end

end Sys2Proof.Machine
end

section
/-! SUPPORT and CERTIFICATE. What a core makes of wire bytes that form a frame, and the round trip
(spec/42_decoder.md R83). -/

namespace Sys2Proof.Machine

/-- Whatever stands before them in the buffer, if it does not end in ESC, the wire bytes `W` close exactly at their
last byte a span that starts at their first, and the span decodes to `D`. -/
structure ReceivedAs (n : FieldCount) (W : List Byte) (D : List Half × Bool) : Prop where
  fits : W.length ≤ maxFrame n
  openBefore : ∀ {P A C : List Byte}, P.getLast? ≠ some esc → W = A ++ C → A ≠ [] → C ≠ [] →
    closeSpan n (P ++ A) = none
  closes : ∀ {P : List Byte}, P.getLast? ≠ some esc → ClosesAt n (P ++ W) P.length
  decodes : ∀ P : List Byte, decodeSpan n (P ++ W) P.length ((P ++ W).length - 1) = D

theorem receivedAs_frame {n : FieldCount} {F : List Half} (hF : F.length = n.toNat) :
    ReceivedAs n (frame F) (F, true) where
  fits := frame_length_le_maxFrame hF
  openBefore {P A C} _ hsplit hA hC := by
    have hpos : 1 ≤ A.length := List.length_pos_iff.mpr hA
    have hlen : (P ++ frame F).length = P.length + (A.length + C.length) := by simp [hsplit]
    have hrest : 1 ≤ C.length := List.length_pos_iff.mpr hC
    have hopen := closeSpan_take_in_frame n (P := P) (F := F) (j := P.length + (A.length - 1)) (by omega) (by omega)
    have htake : (P ++ frame F).take (P.length + (A.length - 1) + 1) = P ++ A := by
      rw [hsplit, ← List.append_assoc]
      exact List.take_left' (by rw [List.length_append]; omega)
    rwa [htake] at hopen
  closes hP := closesAt_append_frame hF (by rw [escRun_append_of_getLast?_ne _ hP])
  decodes P := decodeSpan_append_frame P hF

/-! ## The bytes of `W`, one by one -/

section
variable {s : State} {W P A C : List Byte} {D : List Half × Bool} {b : Byte}

/-- Before its last byte `W` closes nothing, and stays in the buffer as far as it has come. -/
theorem ReceivedAs.exec_rxb_open (hW : ReceivedAs s.n W D) (hP : P.getLast? ≠ some esc) (hbuf : s.rxbuf = P ++ A)
    (hsplit : W = A ++ b :: C) (hC : C ≠ []) :
    ∃ Q r, Q <:+ P ∧ closedBit r = false ∧
      exec (.rxb b) s = .next { s with rxbuf := Q ++ (A ++ [b]), rsp := some r } := by
  have hopen : closeSpan s.n (s.rxbuf ++ [b]) = none := by
    rw [hbuf, List.append_assoc]
    exact hW.openBefore hP (by simp [hsplit]) (by simp) hC
  have hfits : (A ++ [b]).length ≤ maxBuf s.n := by
    have hpos : 1 ≤ C.length := List.length_pos_iff.mpr hC
    have hmax := hW.fits
    simp only [hsplit, maxFrame, List.length_append, List.length_cons] at hmax
    rw [List.length_append, List.length_singleton, maxBuf]
    omega
  obtain ⟨Q, hQ, htrim⟩ := trim_append P hfits
  have hexec := exec_rxb_of_not_closesAt (closeSpan_eq_none_iff.mp hopen)
  rw [hbuf, List.append_assoc, htrim] at hexec
  exact ⟨Q, _, hQ, closedBit_rxb_response _ _ _ _, hexec⟩

/-- `s` after it has received wire bytes that decode to `D`. -/
def State.afterClosure (s : State) (D : List Half × Bool) : State :=
  { closeFrame s D.1 D.2 with rsp := some (response false (rxbData (inFrame []) false true (statusOf true D.2))) }

/-- The last byte of `W` closes it. -/
theorem ReceivedAs.exec_rxb_last (hW : ReceivedAs s.n W D) (hP : P.getLast? ≠ some esc)
    (hbuf : s.rxbuf ++ [b] = P ++ W) : exec (.rxb b) s = .next (s.afterClosure D) := by
  have hend : s.rxbuf.length = (P ++ W).length - 1 := by simp [← hbuf]
  refine exec_rxb_of_closesAt (b0 := P.length) ?_ ?_
  · rw [hbuf]
    exact hW.closes hP
  · rw [hbuf, hend]
    exact hW.decodes P

/-- The rest of `W` completes it. -/
theorem ReceivedAs.commandRun_rest (hW : ReceivedAs s.n W D) (hP : P.getLast? ≠ some esc) (hbuf : s.rxbuf = P ++ A)
    (hsplit : W = A ++ C) (hC : C ≠ []) :
    ∃ rs, CommandRun s (C.map .rxb) rs (s.afterClosure D) ∧
      rs.map closedBit = List.replicate (C.length - 1) false ++ [true] := by
  induction C generalizing s P A with
  | nil => exact absurd rfl hC
  | cons b C ih =>
    cases C with
    | nil =>
      have hlast : s.rxbuf ++ [b] = P ++ W := by rw [hsplit, hbuf, List.append_assoc]
      exact ⟨_, .cons (hW.exec_rxb_last hP hlast) rfl (.nil _), by simp⟩
    | cons c C =>
      obtain ⟨Q, r, hQ, hr, hexec⟩ := hW.exec_rxb_open hP hbuf hsplit (List.cons_ne_nil c C)
      obtain ⟨rs, hrun, hclosed⟩ := ih (s := { s with rxbuf := Q ++ (A ++ [b]), rsp := some r }) hW
        (getLast?_ne_of_suffix hQ hP) rfl (by simp [hsplit]) (List.cons_ne_nil c C)
      refine ⟨r :: rs, .cons hexec rfl hrun, ?_⟩
      rw [List.map_cons, hr, hclosed]
      rfl

end

/-- `W` handed to a core whose buffer does not end in ESC is received. -/
theorem ReceivedAs.commandRun {s : State} {W : List Byte} {D : List Half × Bool} (hW : ReceivedAs s.n W D)
    (hs : s.rxbuf.getLast? ≠ some esc) :
    ∃ rs, CommandRun s (W.map .rxb) rs (s.afterClosure D) ∧
      rs.map closedBit = List.replicate (W.length - 1) false ++ [true] := by
  have hne : W ≠ [] := by
    rintro rfl
    have hroom := (hW.closes (P := []) nofun).room
    simp at hroom
  exact hW.commandRun_rest hs (List.append_nil _).symm rfl hne

/-- What a host sees of it: the run, and the CLOSED bits of the responses. -/
theorem ReceivedAs.received {s : State} {W : List Byte} {D : List Half × Bool} (hW : ReceivedAs s.n W D)
    (hs : s.rxbuf.getLast? ≠ some esc) :
    Host.Core.run Sys2Proof.core W.length (s.present (rxbInputs W)) = .next ((s.afterClosure D).present []) ∧
      (responses W.length (s.present (rxbInputs W))).map closedBit =
        List.replicate (W.length - 1) false ++ [true] := by
  obtain ⟨rs, hrun, hclosed⟩ := hW.commandRun hs
  have hlen : (W.map Instr.rxb).length = W.length := List.length_map _
  constructor
  · rw [← hlen]
    exact hrun.run
  · rw [← hclosed, ← hlen]
    exact congrArg _ hrun.responses

/-- Settles O47: a frame is received as its fields with a valid checksum, and the encoder half is not part of a
closure. -/
theorem roundTrip : Obligations.RoundTrip := by
  intro s F _ hesc hF
  obtain ⟨hrun, hclosed⟩ := (receivedAs_frame hF).received hesc
  exact ⟨⟨_, hrun, rfl, rfl, rfl, rfl, rfl, rfl, rfl⟩, hclosed⟩

end Sys2Proof.Machine
end

section
/-! SUPPORT and CERTIFICATE. Decoding a span (spec/42_decoder.md R74, R75). -/

namespace Sys2Proof.Machine

/-! ## The raw interior -/

section
variable {B : List Byte} {b0 e : Nat}

theorem between_length (he : e ≤ B.length) : (between B b0 e).length = e - b0 - 1 := by
  rw [between, List.length_drop, List.length_take_of_le he, Nat.sub_sub]

theorem between_getElem? {k : Nat} (hk : k < e - b0 - 1) : (between B b0 e)[k]? = B[b0 + 1 + k]? := by
  rw [between, List.getElem?_drop, List.getElem?_take_of_lt (by omega)]

/-- A run of ESC does not go back over another byte. -/
theorem escRun_le_of_ne_esc {b : Byte} (he : e ≤ B.length) (hlt : b0 < e) (hb : B[b0]? = some b) (hne : b ≠ esc) :
    escRun B e ≤ e - b0 - 1 := by
  by_contra hlong
  have hesc : B[b0]? = some esc := getElem?_of_in_escRun he (by omega) hlt
  exact hne (Option.some.inj (hb.symm.trans hesc))

end

/-! ## Fields -/

theorem append_toNat (h l : Byte) : (h ++ l).toNat = h.toNat * 256 + l.toNat := by
  rw [BitVec.toNat_append, ← Nat.shiftLeft_add_eq_or_of_lt l.isLt, Nat.shiftLeft_eq]

theorem fieldsOf_getElem? {n : FieldCount} {V : List Byte} {i : Nat} {f : Half} :
    (fieldsOf n V)[i]? = some f ↔ i < n.toNat ∧ fieldAt V i = f := by
  simp [fieldsOf, List.getElem?_eq_some_iff]

/-- The field at a position whose two bytes are there. -/
theorem fieldAt_bytes {V : List Byte} {i : Nat} (h : 2 * i + 1 < V.length) :
    ∃ hi lo : Byte, V[2 * i]? = some hi ∧ V[2 * i + 1]? = some lo ∧
      (fieldAt V i).toNat = hi.toNat * 256 + lo.toNat := by
  refine ⟨V[2 * i], V[2 * i + 1], List.getElem?_eq_getElem _, List.getElem?_eq_getElem _, ?_⟩
  rw [fieldAt, append_toNat, List.getD_eq_getElem _ _ (by omega), List.getD_eq_getElem _ _ h]

/-- A byte that is not there reads as 0x00, as padding does. -/
theorem fieldsOf_append_zeros (n : FieldCount) (V : List Byte) (k : Nat) :
    fieldsOf n (V ++ List.replicate k 0x00#8) = fieldsOf n V := by
  have hpad (j : Nat) : (V ++ List.replicate k 0x00#8).getD j 0x00#8 = V.getD j 0x00#8 := by
    rcases Nat.lt_or_ge j V.length with hlt | hge
    · exact List.getD_append _ _ _ _ hlt
    · rw [List.getD_append_right _ _ _ _ hge, List.getD_eq_default _ _ hge, List.getD_eq_getElem?_getD,
        List.getElem?_getD_replicate_default_eq]
  exact List.map_congr_left fun i _ => by rw [fieldAt, hpad, hpad, fieldAt]

/-! ## The checksum flag -/

theorem decodeInterior_valid_iff {n : FieldCount} {U : List Byte} :
    (decodeInterior n U).2 = true ↔
      2 * n.toNat ≤ U.length ∧ U.getLast? = some (sum8 (stx :: U.take (2 * n.toNat))) := by
  simp [decodeInterior]

/-- Settles O30: the raw interior lies strictly between the delimiters, and STX ends a run of ESC; the fields and the
flag are those of the bytes that are there, padded by 0x00. -/
theorem spanDecoding : Obligations.SpanDecoding := by
  refine ⟨fun n B b0 e hclose => ?_, fun n U => ⟨fieldsOf_length n U, fun hlong => ⟨fun i f hf => ?_, ?_⟩,
    fun hshort => ⟨(fieldsOf_append_zeros n U _).symm, ?_⟩⟩⟩
  · obtain ⟨rfl, hc⟩ := closeSpan_eq_some_iff.mp hclose
    have hroom : b0 + 1 + (2 * n.toNat + 1) ≤ B.length - 1 := hc.room
    have hlen := between_length (b0 := b0) (Nat.sub_le B.length 1)
    refine ⟨between B b0 (B.length - 1), hlen, by omega, fun k hk => between_getElem? (hlen ▸ hk), hc.etxUnescaped,
      ?_, rfl⟩
    rw [hlen]
    exact escRun_le_of_ne_esc (Nat.sub_le _ _) (by omega) hc.isStart.1 (by decide)
  · obtain ⟨hi, rfl⟩ := fieldsOf_getElem?.mp hf
    exact fieldAt_bytes (by omega)
  · exact decodeInterior_valid_iff.trans (and_iff_right hlong)
  · rw [Bool.eq_false_iff, Ne, decodeInterior_valid_iff]
    exact fun hvalid => Nat.not_le.mpr hshort hvalid.1

end Sys2Proof.Machine
end

section
/-! SUPPORT and CERTIFICATE. Frames with a data byte changed to another one (spec/42_decoder.md R86). The synchronizer
looks at control bytes only, so that such a change leaves every closure as it is. -/

namespace Sys2Proof.Machine

/-! ## The synchronizer looks at control bytes only -/

/-- A byte as the synchronizer sees it: a control byte, or else 0x00 for any data byte. -/
def shapeByte (b : Byte) : Byte := if isCtrl b then b else 0x00#8

/-- A byte sequence as the synchronizer sees it. -/
def shape (B : List Byte) : List Byte := B.map shapeByte

theorem shapeByte_eq_iff {b c : Byte} (hc : isCtrl c = true) : shapeByte b = c ↔ b = c := by
  unfold shapeByte
  split
  next => rfl
  next hb =>
    constructor
    · rintro rfl
      cases hc
    · rintro rfl
      exact absurd hc hb

theorem shape_append (A B : List Byte) : shape (A ++ B) = shape A ++ shape B := List.map_append

theorem shape_length (B : List Byte) : (shape B).length = B.length := List.length_map _

theorem shape_getElem?_eq_some_iff {B : List Byte} {i : Nat} {c : Byte} (hc : isCtrl c = true) :
    (shape B)[i]? = some c ↔ B[i]? = some c := by
  simp [shape, shapeByte_eq_iff hc]

theorem escRun_shape (B : List Byte) (i : Nat) : escRun (shape B) i = escRun B i := by
  have hesc : ((· == esc) ∘ shapeByte) = (· == esc) := by
    funext b
    rw [Function.comp_apply, Bool.eq_iff_iff, beq_iff_eq, beq_iff_eq]
    exact shapeByte_eq_iff rfl
  rw [escRun, escRun, shape, ← List.map_take, ← List.map_reverse, List.takeWhile_map, hesc, List.length_map]

section
variable {B B' : List Byte}

theorem length_eq_of_shape_eq (h : shape B = shape B') : B.length = B'.length := by
  rw [← shape_length, h, shape_length]

theorem ne_nil_of_shape_eq (h : shape B = shape B') (hB : B ≠ []) : B' ≠ [] := by
  rintro rfl
  exact hB (List.map_eq_nil_iff.mp h)

theorem escRun_eq_of_shape_eq (h : shape B = shape B') (i : Nat) : escRun B i = escRun B' i := by
  rw [← escRun_shape, h, escRun_shape]

theorem unescapedStx_iff_of_shape_eq (h : shape B = shape B') (i : Nat) : UnescapedStx B i ↔ UnescapedStx B' i := by
  rw [UnescapedStx, ← shape_getElem?_eq_some_iff rfl, h, shape_getElem?_eq_some_iff rfl, escRun_eq_of_shape_eq h,
    UnescapedStx]

/-- Sequences of one shape close the same spans. -/
theorem ClosesAt.of_shape_eq {n : FieldCount} {b0 : Nat} (hc : ClosesAt n B b0) (h : shape B = shape B') :
    ClosesAt n B' b0 where
  lastIsEtx := by
    have hetx := hc.lastIsEtx
    rwa [List.getLast?_eq_getElem?, ← shape_getElem?_eq_some_iff rfl, h, length_eq_of_shape_eq h,
      shape_getElem?_eq_some_iff rfl, ← List.getLast?_eq_getElem?] at hetx
  etxUnescaped := by
    rw [← escRun_eq_of_shape_eq h, ← length_eq_of_shape_eq h]
    exact hc.etxUnescaped
  isStart := (unescapedStx_iff_of_shape_eq h b0).mp hc.isStart
  isLatest j hlo hj hstx :=
    hc.isLatest j hlo (length_eq_of_shape_eq h ▸ hj) ((unescapedStx_iff_of_shape_eq h j).mpr hstx)
  room := length_eq_of_shape_eq h ▸ hc.room

end

theorem shape_change {A C : List Byte} {x y : Byte} (hx : isCtrl x = false) (hy : isCtrl y = false) :
    shape (A ++ x :: C) = shape (A ++ y :: C) := by
  simp [shape, shapeByte, hx, hy]

/-- Wire bytes of the shape of a received sequence close where that one does. -/
theorem ReceivedAs.of_shape_eq {n : FieldCount} {W W' : List Byte} {D D' : List Half × Bool} (hW : ReceivedAs n W D)
    (h : shape W = shape W')
    (hD : ∀ P : List Byte, decodeSpan n (P ++ W') P.length ((P ++ W').length - 1) = D') : ReceivedAs n W' D' where
  fits := length_eq_of_shape_eq h ▸ hW.fits
  openBefore {P A' C'} hP hsplit hA' hC' := by
    rw [hsplit, shape_append] at h
    obtain ⟨A, C, rfl, hA, hC⟩ := List.map_eq_append_iff.mp h
    rw [← shape] at hA hC
    have hopen := hW.openBefore hP rfl (ne_nil_of_shape_eq hA.symm hA') (ne_nil_of_shape_eq hC.symm hC')
    rw [closeSpan_eq_none_iff] at hopen ⊢
    exact fun b0 hc => hopen b0 (hc.of_shape_eq (by rw [shape_append, ← hA, shape_append]))
  closes {P} hP := (hW.closes hP).of_shape_eq (by rw [shape_append, h, shape_append])
  decodes := hD

/-! ## The interior with one byte changed -/

/-- A data byte of a stuffed sequence stands for itself. -/
theorem stuff_eq_append_data_cons {I A C : List Byte} {x : Byte} (hx : isCtrl x = false)
    (h : stuff I = A ++ x :: C) : ∃ S T, I = S ++ x :: T ∧ A = stuff S ∧ C = stuff T := by
  induction I generalizing A with
  | nil => simp at h
  | cons b I ih =>
    rw [stuff_cons] at h
    cases hb : isCtrl b with
    | true =>
      rw [esc1_of_ctrl hb] at h
      match A with
      | [] =>
        obtain rfl : esc = x := (List.cons.inj h).1
        cases hx
      | [_] =>
        obtain rfl : b = x := (List.cons.inj (List.cons.inj h).2).1
        rw [hb] at hx
        cases hx
      | a :: c :: A =>
        simp only [List.cons_append, List.nil_append, List.cons.injEq] at h
        obtain ⟨rfl, rfl, hrest⟩ := h
        obtain ⟨S, T, rfl, rfl, rfl⟩ := ih hrest
        exact ⟨b :: S, T, rfl, by rw [stuff_cons, esc1_of_ctrl hb]; rfl, rfl⟩
    | false =>
      rw [esc1_of_data hb] at h
      match A with
      | [] =>
        obtain ⟨rfl, rfl⟩ := List.cons.inj h
        exact ⟨[], I, rfl, rfl, rfl⟩
      | a :: A =>
        obtain ⟨rfl, hrest⟩ := List.cons.inj h
        obtain ⟨S, T, rfl, rfl, rfl⟩ := ih hrest
        exact ⟨b :: S, T, rfl, by rw [stuff_cons, esc1_of_data hb]; rfl, rfl⟩

theorem decodeInterior_concat_valid_iff {n : FieldCount} {V : List Byte} {c : Byte} (hV : V.length = 2 * n.toNat) :
    (decodeInterior n (V ++ [c])).2 = true ↔ c = sum8 (stx :: V) := by
  rw [decodeInterior_valid_iff, List.take_left' hV, List.getLast?_concat, Option.some.injEq]
  exact and_iff_right (by rw [List.length_append, hV]; exact Nat.le_add_right _ _)

/-- The checksum of a frame does not hold for an interior with one byte changed. -/
theorem decodeInterior_changed {n : FieldCount} {F : List Half} {S T : List Byte} {x y : Byte}
    (hF : F.length = n.toNat) (hI : interiorBytes F = S ++ x :: T) (hxy : x ≠ y) :
    (decodeInterior n (S ++ y :: T)).2 = false := by
  have hpayload : (payload F).length = 2 * n.toNat := by rw [payload_length, hF]
  rw [Bool.eq_false_iff]
  rcases T.eq_nil_or_concat' with rfl | ⟨T, c, rfl⟩
  · obtain ⟨rfl, hx⟩ := List.append_inj' hI rfl
    obtain rfl : checksum F = x := List.singleton_inj.mp hx
    rw [Ne, decodeInterior_concat_valid_iff hpayload]
    exact hxy.symm
  · rw [← List.cons_append, ← List.append_assoc] at hI
    obtain ⟨hV, hc⟩ := List.append_inj' hI rfl
    obtain rfl : checksum F = c := List.singleton_inj.mp hc
    rw [← List.cons_append, ← List.append_assoc, Ne, decodeInterior_concat_valid_iff (by simpa [hV] using hpayload),
      checksum, hV]
    obtain ⟨-, -, hchange, -⟩ := checksumLaws
    exact fun hsum => hxy ((hchange (stx :: S) T x y).mp hsum)

/-! ## The frame with one byte changed -/

theorem between_append_wire (P M : List Byte) :
    between (P ++ stx :: (M ++ [etx])) P.length ((P ++ stx :: (M ++ [etx])).length - 1) = M := by
  have hsplit : P ++ stx :: (M ++ [etx]) = P ++ [stx] ++ M ++ [etx] := by simp
  have hend : (P ++ [stx] ++ M ++ [etx]).length - 1 = (P ++ [stx] ++ M).length := by simp
  rw [between, hsplit, hend, List.take_left]
  exact List.drop_left' (by simp)

/-- A data byte of a frame is a byte of its interior, which stands for itself. -/
theorem frame_eq_append_data_cons {F : List Half} {A C : List Byte} {x : Byte} (hx : isCtrl x = false)
    (h : frame F = A ++ x :: C) :
    ∃ S T, interiorBytes F = S ++ x :: T ∧ A = stx :: stuff S ∧ C = stuff T ++ [etx] := by
  rw [frame] at h
  cases A with
  | nil =>
    obtain rfl : stx = x := (List.cons.inj h).1
    cases hx
  | cons a A =>
    rw [List.cons_append] at h
    obtain ⟨rfl, hrest⟩ := List.cons.inj h
    rcases C.eq_nil_or_concat' with rfl | ⟨C, c, rfl⟩
    · obtain rfl : etx = x := List.singleton_inj.mp (List.append_inj' hrest rfl).2
      cases hx
    · rw [← List.cons_append, ← List.append_assoc] at hrest
      obtain ⟨hstuff, hc⟩ := List.append_inj' hrest rfl
      obtain ⟨S, T, hI, rfl, rfl⟩ := stuff_eq_append_data_cons hx hstuff
      exact ⟨S, T, hI, rfl, by rw [hc]⟩

theorem receivedAs_changed {n : FieldCount} {F : List Half} {A C : List Byte} {x y : Byte} (hF : F.length = n.toNat)
    (hframe : frame F = A ++ x :: C) (hx : isCtrl x = false) (hy : isCtrl y = false) (hxy : x ≠ y) :
    ∃ D, ReceivedAs n (A ++ y :: C) D ∧ D.2 = false := by
  obtain ⟨S, T, hI, rfl, rfl⟩ := frame_eq_append_data_cons hx hframe
  have hwire : stx :: stuff S ++ y :: (stuff T ++ [etx]) = stx :: (stuff (S ++ y :: T) ++ [etx]) := by
    simp [stuff_cons, esc1_of_data hy]
  refine ⟨decodeInterior n (S ++ y :: T), (receivedAs_frame hF).of_shape_eq ?_ fun P => ?_,
    decodeInterior_changed hF hI hxy⟩
  · rw [hframe]
    exact shape_change hx hy
  · rw [hwire, decodeSpan, between_append_wire, unstuffUndoesStuff]

/-- Settles O48: the changed frame is received as its fields with an invalid checksum. -/
theorem changedDataByteIsCaught : Obligations.ChangedDataByteIsCaught := by
  intro s F A C x y _ hesc hF hframe hx hy hxy
  have hlen : (frame F).length = (A ++ y :: C).length := by simp [hframe]
  obtain ⟨D, hD, hinvalid⟩ := receivedAs_changed hF hframe hx hy hxy
  obtain ⟨hrun, hclosed⟩ := hD.received hesc
  rw [hlen]
  exact ⟨⟨_, hrun, hinvalid, rfl, rfl, congrArg (statusOf true) hinvalid⟩, hclosed⟩

end Sys2Proof.Machine
end

section
/-! SUPPORT and CERTIFICATE. RXB, by whether its byte closes a span (spec/42_decoder.md R76 to R79, R85). -/

namespace Sys2Proof.Machine

/-! ## The response of RXB -/

theorem inFrame_eq_isSome_lastStart (B : List Byte) : inFrame B = (lastStart B B.length).isSome := by
  unfold inFrame decoderState
  cases lastStart B B.length <;> rfl

theorem inFrame_iff {B : List Byte} : inFrame B = true ↔ ∃ i, UnescapedStx B i := by
  rw [inFrame_eq_isSome_lastStart, Option.isSome_iff_ne_none, Ne, lastStart_eq_none_iff]
  constructor
  · intro h
    by_contra hnone
    exact h fun i _ hi => hnone ⟨i, hi⟩
  · rintro ⟨i, hi⟩ hnone
    exact hnone i (List.getElem?_eq_some_iff.mp hi.1).1 hi

/-- The bits of RXB's response by their weights (R79). -/
theorem response_rxbData (inframe trimmed closed : Bool) (status : BitVec 2) :
    response false (rxbData inframe trimmed closed status) =
      BitVec.ofNat 32 (16 * inframe.toNat + 8 * trimmed.toNat + 4 * closed.toNat + status.toNat) := by
  revert inframe trimmed closed status
  decide

/-! ## A byte that closes a span -/

/-- Settles O31. -/
theorem rxbClosureStoresFrame : Obligations.RxbClosureStoresFrame := by
  intro s b b0 hc D
  have hrsp (ok : Bool) : response false (rxbData (inFrame []) false true (statusOf true ok)) =
      if ok then 0x00000005#32 else 0x00000004#32 := by
    rw [response_rxbData]
    cases ok <;> rfl
  rw [exec_rxb_of_closesAt hc rfl, hrsp]
  rfl

/-! ## A byte that closes nothing -/

theorem trim_length {n : FieldCount} {B : List Byte} (h : B.length ≤ maxBuf n + 1) :
    (trim n B).length = min B.length (maxBuf n) := by
  unfold trim
  split
  · rw [List.length_drop]
    omega
  · omega

/-- Settles O32: the trim and the response's bits, INFRAME being that of the buffer as it is after the step. -/
theorem rxbWithoutClosureKeepsAndTrims : Obligations.RxbWithoutClosureKeepsAndTrims := by
  intro s b hopen B tooLong buf
  have hbuf : buf = trim s.n B := if_congr decide_eq_true_iff rfl rfl
  rw [hbuf]
  refine ⟨inFrame (trim s.n B), inFrame_iff, ?_, fun hbound => trim_length ?_⟩
  · rw [exec_rxb_of_not_closesAt hopen, response_rxbData]
    rfl
  · rw [List.length_append]
    exact Nat.add_le_add_right hbound 1

/-! ## A further or an escaped ETX -/

/-- Settles O37: one byte is too short for a span, and an escaped ETX is no end of one. -/
theorem doubledEtxIsOrdinary : Obligations.DoubledEtxIsOrdinary := by
  constructor
  · intro s hempty
    have hopen : ∀ b0, ¬ClosesAt s.n (s.rxbuf ++ [0x03#8]) b0 := by
      intro b0 hc
      have hroom := hc.room
      simp [hempty] at hroom
    have hshort : ¬maxBuf s.n < ([0x03#8] : List Byte).length := by simp [maxBuf]
    have htrim : trim s.n [0x03#8] = [0x03#8] := if_neg hshort
    have htrims : trims s.n [0x03#8] = false := decide_eq_false hshort
    have hframe : inFrame [0x03#8] = false := by decide
    rw [exec_rxb_of_not_closesAt hopen, response_rxbData, hempty, List.nil_append, htrim, htrims, hframe]
    simp
  · intro s t hodd hexec
    have hopen : ∀ b0, ¬ClosesAt s.n (s.rxbuf ++ [0x03#8]) b0 := by
      intro b0 hc
      have heven := hc.etxUnescaped
      rw [List.length_append, List.length_singleton, Nat.add_sub_cancel, escRun_append_of_le _ le_rfl] at heven
      omega
    rw [exec_rxb_of_not_closesAt hopen] at hexec
    obtain rfl := Host.Outcome.next.inj hexec
    exact ⟨rfl, rfl, rfl, rfl, _, rfl, closedBit_rxb_response _ _ _ _⟩

/-! ## Closures separate frames -/

/-- Settles O38: a closure empties the buffer; Close sees N, the buffer and the byte only, and what a closure stores
is decoded from these. -/
theorem nothingCrossesAClosure : Obligations.NothingCrossesAClosure := by
  constructor
  · intro s t b b0 hc hexec
    rw [exec_rxb_of_closesAt hc rfl] at hexec
    obtain rfl := Host.Outcome.next.inj hexec
    rfl
  · intro s s' t t' b hn hbuf hexec hexec'
    by_cases hc : ∃ b0, ClosesAt s.n (s.rxbuf ++ [b]) b0
    · obtain ⟨b0, hc⟩ := hc
      rw [exec_rxb_of_closesAt hc rfl] at hexec
      rw [exec_rxb_of_closesAt (hn ▸ hbuf ▸ hc) rfl, ← hn, ← hbuf] at hexec'
      obtain rfl := Host.Outcome.next.inj hexec
      obtain rfl := Host.Outcome.next.inj hexec'
      exact ⟨rfl, .inl ⟨rfl, rfl, rfl, rfl⟩⟩
    · rw [not_exists] at hc
      rw [exec_rxb_of_not_closesAt hc] at hexec
      rw [exec_rxb_of_not_closesAt (hn ▸ hbuf ▸ hc), ← hn, ← hbuf] at hexec'
      obtain rfl := Host.Outcome.next.inj hexec
      obtain rfl := Host.Outcome.next.inj hexec'
      exact ⟨rfl, .inr ⟨rfl, rfl, rfl, rfl, rfl, rfl⟩⟩

end Sys2Proof.Machine
end

section
/-! CERTIFICATE. The reading commands, each by an equation of its own (spec/42_decoder.md R80 to R82). -/

namespace Sys2Proof.Machine

/-- Settles O33: STATUS by R27's cases. -/
theorem rdstatAnswersStatus : Obligations.RdstatAnswersStatus := by
  intro s
  have hrsp (haveFrame chkOk : Bool) : (statusOf haveFrame chkOk).setWidth 32 =
      if haveFrame = false then 0x00000002#32 else if chkOk = true then 0x00000001#32 else 0x00000000#32 := by
    revert haveFrame chkOk
    decide
  rw [exec_rdstat, State.status, hrsp]

/-- Settles O34: the two ranges of the index. -/
theorem rdfldAnswersField : Obligations.RdfldAnswersField := by
  refine fun s idx => ⟨fun hidx hlf => ?_, fun hidx => if_neg (not_indexInRange_of_le hidx)⟩
  have hlt : idx.toNat < s.lf.length := hlf ▸ hidx
  exact ⟨s.lf[idx.toNat], List.getElem?_eq_getElem hlt, exec_rdfld_of_lt hidx hlt⟩

/-- RDRXLEN's response by its weights, for a length that fits DATA[4:0] (R82). -/
theorem response_rdrxlenData (inframe : Bool) {length : Nat} (h : length < 2 ^ 5) :
    response false (rdrxlenData inframe length) = BitVec.ofNat 32 (32 * inframe.toNat + length) := by
  have hbits : (BitVec.ofBool inframe ++ BitVec.ofNat 5 length).toNat = 32 * inframe.toNat + length := by
    rw [BitVec.toNat_append, BitVec.toNat_ofNat, Nat.mod_eq_of_lt h, ← Nat.shiftLeft_add_eq_or_of_lt h,
      Nat.shiftLeft_eq, BitVec.toNat_ofBool, Nat.mul_comm]
  rw [response_false, rdrxlenData, BitVec.setWidth_setWidth (by decide), ← hbits, BitVec.ofNat_toNat]

/-- Settles O35: MAXBUF is at most 18, so that the length fits. -/
theorem rdrxlenAnswersLength : Obligations.RdrxlenAnswersLength := by
  intro s hbound
  have hfour := s.n.toNat_le_four
  rw [maxBuf] at hbound
  refine ⟨inFrame s.rxbuf, inFrame_iff, ?_⟩
  rw [← response_rdrxlenData _ (by omega)]
  rfl

end Sys2Proof.Machine
end

section
/-! SUPPORT and CERTIFICATE. What holds along every run from reset (spec/42_decoder.md R84). -/

namespace Sys2Proof.Machine

/-- Every step completes, whatever stands at the port (spec/60_exceptions.md R97). -/
theorem step_completes (s : State) : ∃ t, step s = .next t := by
  cases hport : s.port with
  | nil => exact ⟨_, step_of_port_nil hport⟩
  | cons x rest =>
    obtain ⟨u, hu⟩ := step_first_input s x
    have hstep := hu rest
    rw [← hport] at hstep
    exact ⟨u.present rest, hstep⟩

theorem step_n {s t : State} (h : step s = .next t) : t.n = s.n := by
  rcases step_cases h with ⟨-, rfl⟩ | ⟨rest, -, rfl⟩ | ⟨w, rest, i, -, -, hexec⟩ | ⟨w, rest, e, -, -, rfl⟩
  · rfl
  · rfl
  · exact (exec_effect hexec).n
  · rfl

/-- Every run from a state of the invariant completes, with the same N and in the invariant. -/
theorem run_keeps_invariant {s : State} (hs : StateInv s) (k : Nat) :
    ∃ t, Host.Core.run Sys2Proof.core k s = .next t ∧ t.n = s.n ∧ StateInv t := by
  induction k generalizing s with
  | zero => exact ⟨s, rfl, rfl, hs⟩
  | succ k ih =>
    obtain ⟨u, hstep⟩ := step_completes s
    obtain ⟨t, hrun, hn, ht⟩ := ih (stepKeepsInvariant s u hs hstep)
    exact ⟨t, (run_succ_of_step k hstep).trans hrun, hn.trans (step_n hstep), ht⟩

/-- Settles O46: the bound on RXBUF is part of the invariant, which the reset state meets with any inputs presented. -/
theorem resyncBound : Obligations.ResyncBound := by
  intro n inputs k
  obtain ⟨t, hrun, hn, ht⟩ := run_keeps_invariant ((stateInv_resetOf n).interface inputs none) k
  have hbound := ht.rxbufBound
  rw [hn] at hbound
  exact ⟨t, hrun, hbound⟩

end Sys2Proof.Machine
end

section
/-! SUPPORT and CERTIFICATE. The dispatch of a legal word, and NOP (spec/43_control.md R87, R88). -/

namespace Sys2Proof.Machine

/-! ## Dispatch -/

/-- Settles O5: the case of the step for a word that decodes. -/
theorem stepRunsDecodedCommand : Obligations.StepRunsDecodedCommand :=
  fun _ _ _ _ => step_of_decode_ok

/-- Settles O6: the encoding of a well-formed command decodes to that command. -/
theorem stepRunsEncodedCommand : Obligations.StepRunsEncodedCommand :=
  fun s _ i hport hi => step_of_decode_ok hport ((decodeEncodeAgree s.n (encode i) i).mpr ⟨hi, rfl⟩)

/-! ## NOP -/

theorem exec_nop (s : State) : exec .nop s = .next { s with rsp := some 0x00000000#32 } := rfl

/-- NOP's row is the only one with OP = 0x0 (R52). -/
theorem eq_nop_of_opcode_eq_zero {i : Instr} (h : i.opcode = 0) : i = .nop := by
  cases i with
  | nop => rfl
  | ewf | estart | txpop | rxb | rdstat | rdfld | rdrxlen => simp [Instr.opcode] at h

/-- Settles O12: a word that decodes is its command's encoding, so with OP = 0x0 it is NOP's word. -/
theorem nopDoesNothing : Obligations.NopDoesNothing := by
  refine ⟨exec_nop, fun n w hop hne => ?_⟩
  cases hd : decode n w with
  | error e => exact ⟨e, rfl⟩
  | ok i =>
    obtain ⟨-, henc⟩ := (decodeEncodeAgree n w i).mp hd
    obtain ⟨hopcode, -⟩ := encode_eq_iff.mp henc
    obtain rfl := eq_nop_of_opcode_eq_zero (hopcode.symm.trans hop)
    exact absurd henc.symm hne

end Sys2Proof.Machine
end

section
/-! CERTIFICATE. The idle step (spec/60_exceptions.md R106). -/

namespace Sys2Proof.Machine

/-- Settles O10: the case of the step for an empty port. -/
theorem idleStepHoldsState : Obligations.IdleStepHoldsState :=
  fun _ => step_of_port_nil

end Sys2Proof.Machine
end

section
/-! SUPPORT and CERTIFICATE. The RESET input (spec/70_reset_and_hazards.md R107). -/

namespace Sys2Proof.Machine

@[simp] theorem decoderState_nil : decoderState [] = .searching := rfl

/-- Settles O8: RESET leaves the reset state of the same build, whose buffer is empty and which meets the invariant. -/
theorem resetInputResetsCore : Obligations.ResetInputResetsCore := fun s rest hport =>
  ⟨applyReset { s with port := rest }, step_of_port_reset hport, applyReset_eq _, decoderState_nil,
    stateInv_applyReset _⟩

end Sys2Proof.Machine
end
